-- ==== Sys2Proof/Word.lean ====
section
/-! DEFINITION. The two word widths of the engine: bytes (the F-table, the key, the stages of `G`) and
16-bit words (the block). Spec: 00_scope R8, R10. -/

namespace Sys2Proof

/-- Eight bits, bit 0 the least significant (R8, R10). -/
abbrev Byte := BitVec 8

/-- Sixteen bits: one of the four words of a block (R8, R21). -/
abbrev Word := BitVec 16

end Sys2Proof
end

