-- ==== Sys2Proof/Syntax.lean ====
section
/-! DEFINITION. The operations of the engine, one constructor per row of spec/opcode_table.json
(00_scope R2, 30_encoding R84), and what a unit is handed when an operation is issued to it.
An operation's operands that its format word does not hold travel beside that word (log 3). -/

namespace Sys2Proof

/-- The operations. A round counter operand `r` in 1..32 is held as the step number `k = r - 1`, five
bits (R16, R26), so that every value of the field is a legal counter. -/
inductive Instr where
  /-- `RESET`, CMD `1sd`: the `start` and `decrypt` bits are ignored (R200). -/
  | reset (start decrypt : Bool)
  /-- `NOP`, CMD `00d`: the `decrypt` bit is ignored (R147). -/
  | nop (decrypt : Bool)
  /-- `START_ENC`, CMD `010`, with the two operand ports (R149). -/
  | startEnc (key : BitVec 80) (block : BitVec 64)
  /-- `START_DEC`, CMD `011`, with the two operand ports (R150). -/
  | startDec (key : BitVec 80) (block : BitVec 64)
  /-- `RULE_A(k + 1)`, SW `0k0kkk` (R127). -/
  | ruleA (k : BitVec 5)
  /-- `RULE_B(k + 1)`, SW `0k1kkk` (R129). -/
  | ruleB (k : BitVec 5)
  /-- `RULE_A_INV(k + 1)`, SW `1k0kkk` (R131). -/
  | ruleAInv (k : BitVec 5)
  /-- `RULE_B_INV(k + 1)`, SW `1k1kkk` (R133). -/
  | ruleBInv (k : BitVec 5)
  /-- `G(k + 1, w)`, GSEL `0` (R103). -/
  | g (k : BitVec 5) (w : Word)
  /-- `G_INV(k + 1, w)`, GSEL `1` (R105). -/
  | gInv (k : BitVec 5) (w : Word)
  /-- `GS(l, r, kb)`, one stage of `G`, GSEL `0` (R101). -/
  | gs (l r kb : Byte)
  /-- `GSI(l, r, kb)`, one stage of `G_INV`, GSEL `1` (R102). -/
  | gsi (l r kb : Byte)
  /-- `CV(k + 1, j)`, KSEL `kkkkkjj` (R115). -/
  | cv (k : BitVec 5) (j : BitVec 2)
  /-- `F(a)`, FADDR `aaaaaaaa` (R90). -/
  | f (a : Byte)
  deriving DecidableEq, Repr

/-- Where a format word is presented (R70): the host's command port, the sequencer, the G unit as a
whole, one stage of it, key schedule access, the F-table ROM. The unit fixes the format; it also tells
`G` from `GS` and `G_INV` from `GSI`, which share their word (R84). -/
inductive FunctionalUnit where
  | command | schedule | gUnit | gStage | keySchedule | fTable
  deriving DecidableEq, Repr

/-- What a unit is handed: its format word, and the operands beside it. -/
inductive Issue where
  /-- `CMD` with the operand ports `key_in` and `block_in` (R71). -/
  | command (cmd : BitVec 3) (keyIn : BitVec 80) (blockIn : BitVec 64)
  /-- `SW = MODE || K` (R74). -/
  | schedule (sw : BitVec 6)
  /-- `GSEL` at the G unit, with the step number and the input word (R77, R103). -/
  | gUnit (gsel : BitVec 1) (k : BitVec 5) (w : Word)
  /-- `GSEL` at one stage, with the byte pair and the key byte (R77, R101). -/
  | gStage (gsel : BitVec 1) (l r kb : Byte)
  /-- `KSEL = K || j` (R78). -/
  | keySchedule (ksel : BitVec 7)
  /-- `FADDR` (R79). -/
  | fTable (faddr : BitVec 8)
  deriving DecidableEq, Repr

end Sys2Proof
end

