-- ==== Sys2Proof/Machine/State.lean ====
section
/-! DEFINITION. The state of the engine (10_state R20): four state words, ten key bytes, the round
counter, the direction, the phase; and two fields of the model's own (log 1, log 2). -/

namespace Sys2Proof.Machine

/-- `PHASE`, a 2-bit register (R28). -/
inductive Phase where
  /-- Code 0: no operation since reset. -/
  | idle
  /-- Code 1: an operation is in progress; the next step performs round `CTR`. -/
  | busy
  /-- Code 2: an operation has completed; `W1..W4` hold its result. -/
  | done
  /-- Code 3: reserved, reached by no run (R34). -/
  | reserved
  deriving DecidableEq, Repr

/-- `MODE`, a 1-bit register (R27). -/
inductive Mode where
  /-- Code 0. -/
  | encrypt
  /-- Code 1. -/
  | decrypt
  deriving DecidableEq, Repr

/-- The state words `W1..W4`: the block (R21). They are always written together (R22). -/
@[ext]
structure Words where
  w1 : Word
  w2 : Word
  w3 : Word
  w4 : Word
  deriving DecidableEq, Repr

/-- The key registers `KEYR0..KEYR9` (R23). -/
abbrev KeyRegs := Vector Byte 10

/-- One sample of the input ports (R29). -/
structure Ports where
  rst : Bool
  start : Bool
  decrypt : Bool
  keyIn : BitVec 80
  blockIn : BitVec 64
  deriving DecidableEq, Repr

/-- The host drives nothing: `rst = start = decrypt = 0`, a `NOP` wherever commands are read. -/
def Ports.idle : Ports := ⟨false, false, false, 0, 0⟩

/-- What a sub-operation's unit puts on its output wires. -/
inductive UnitOut where
  /-- Nothing: the state between two steps. -/
  | none
  /-- The byte of `F` or `CV`. -/
  | byte (b : Byte)
  /-- The byte pair of `GS` or `GSI`. -/
  | pair (l r : Byte)
  /-- The word of `G` or `G_INV`. -/
  | word (w : Word)
  deriving DecidableEq, Repr

/-- The state of the engine. -/
@[ext]
structure State where
  /-- `W1..W4` (R21). -/
  w : Words
  /-- `KEYR0..KEYR9` (R23). -/
  keyr : KeyRegs
  /-- `CTR`, the round counter (R24). -/
  ctr : BitVec 6
  /-- `MODE` (R27). -/
  mode : Mode
  /-- `PHASE` (R28). -/
  phase : Phase
  /-- The model's own: the port samples the host will drive, one a step, oldest first; when the list is
  empty the host drives `Ports.idle` (log 1). -/
  host : List Ports
  /-- The model's own: the value a sub-operation's unit has on its output wires, which `exec` has no other
  way to hand back. No operation reads it and every step ends with it empty (R32; log 2). -/
  unitOut : UnitOut
  deriving DecidableEq, Repr

/-- The engine raises no fault of any kind (60_exceptions R175, R177), so there is no reason for one: the
type is empty (log 8). -/
inductive Fault where
  deriving DecidableEq, Repr

/-- Why a step is refused. -/
inductive Refusal where
  /-- `exec`, for an operation that has no meaning yet. Safe. -/
  | notModelled (mnemonic : String)
  /-- `step`, from a state with `PHASE = 3`, to which the spec gives no meaning (R34). Safe (log 4). -/
  | reservedPhase
  /-- `step`, from a state with `CTR` outside 1..32, to which the spec gives no meaning (R34). Safe
  (log 4). -/
  | counterOutOfRange
  deriving DecidableEq, Repr

/-- The state after `RESET` (R33). The host has driven nothing yet and no wire carries a value. -/
def State.reset : State where
  w := ⟨0, 0, 0, 0⟩
  keyr := #v[0, 0, 0, 0, 0, 0, 0, 0, 0, 0]
  ctr := 1
  mode := .encrypt
  phase := .idle
  host := []
  unitOut := .none

end Sys2Proof.Machine
end

