-- ==== Sys2Proof/Machine/Operands.lean ====
section
/-! DEFINITION. Operand forms: the codes of the control registers, the two bytes of a word, the counter
word, and the byte layout of keys and blocks on the ports (20_memory R55 to R58, 30_encoding R80). -/

namespace Sys2Proof.Machine

/-! ## Codes of the control registers -/

/-- The 2-bit code of a phase (R28). -/
def Phase.code : Phase → BitVec 2
  | .idle => 0
  | .busy => 1
  | .done => 2
  | .reserved => 3

/-- The bit of a direction (R27). -/
def Mode.bit : Mode → BitVec 1
  | .encrypt => 0
  | .decrypt => 1

/-- A start is accepted in IDLE and in DONE (R148). -/
def Phase.acceptsStart : Phase → Bool
  | .idle => true
  | .busy => false
  | .done => true
  | .reserved => false

/-! ## Words and bytes -/

/-- The high byte of a word, bits 15:8 (R58). -/
def hiByte (w : Word) : Byte := w.extractLsb' 8 8

/-- The low byte of a word, bits 7:0 (R58). -/
def loByte (w : Word) : Byte := w.extractLsb' 0 8

/-- The word of two bytes, the first one high (R55, R58). -/
def joinBytes (hi lo : Byte) : Word := hi ++ lo

/-- The counter word `zext_16(r)` (R80, R126). -/
def counterWord (r : Nat) : Word := BitVec.ofNat 16 r

/-- The round counter of step number `k`: `r = k + 1` (R16). -/
def roundOf (k : BitVec 5) : Nat := k.toNat + 1

/-! ## The block on the ports -/

/-- The four words of a block port, `W1` in its most significant bits (R57). -/
def Words.ofPort (p : BitVec 64) : Words :=
  ⟨p.extractLsb' 48 16, p.extractLsb' 32 16, p.extractLsb' 16 16, p.extractLsb' 0 16⟩

/-- The block port of four words: `W1 || W2 || W3 || W4` (R30, R57). -/
def Words.toPort (x : Words) : BitVec 64 := x.w1 ++ x.w2 ++ x.w3 ++ x.w4

/-- The four words of the eight bytes `b0..b7`, big-endian, consecutive pairs (R55). -/
def Words.ofBytes (b : Vector Byte 8) : Words :=
  ⟨joinBytes b[0] b[1], joinBytes b[2] b[3], joinBytes b[4] b[5], joinBytes b[6] b[7]⟩

/-- The eight bytes of four words, high byte first (R55, R155). -/
def Words.toBytes (x : Words) : Vector Byte 8 :=
  #v[hiByte x.w1, loByte x.w1, hiByte x.w2, loByte x.w2,
    hiByte x.w3, loByte x.w3, hiByte x.w4, loByte x.w4]

/-- The block port of the bytes `b0..b7`: `b0` is the most significant byte (R57). -/
def blockPortOfBytes (b : Vector Byte 8) : BitVec 64 :=
  b[0] ++ b[1] ++ b[2] ++ b[3] ++ b[4] ++ b[5] ++ b[6] ++ b[7]

/-! ## The key on its port -/

/-- The key registers loaded from `key_in`: `KEYR[i] = key_in[79 - 8i : 72 - 8i]` (R56, R149). -/
def keyOfPort (p : BitVec 80) : KeyRegs :=
  #v[p.extractLsb' 72 8, p.extractLsb' 64 8, p.extractLsb' 56 8, p.extractLsb' 48 8,
    p.extractLsb' 40 8, p.extractLsb' 32 8, p.extractLsb' 24 8, p.extractLsb' 16 8,
    p.extractLsb' 8 8, p.extractLsb' 0 8]

/-- The key port of the bytes `k0..k9`: `k0` is the most significant byte (R56). -/
def keyPortOfBytes (k : KeyRegs) : BitVec 80 :=
  k[0] ++ k[1] ++ k[2] ++ k[3] ++ k[4] ++ k[5] ++ k[6] ++ k[7] ++ k[8] ++ k[9]

end Sys2Proof.Machine
end

