-- ==== Sys2Proof/Machine/Flags.lean ====
section
/-! DEFINITION. The output ports, pure functions of the state (10_state R30). `busy` and `done` are the
only flags of the engine, and no operation has a flag side effect. -/

namespace Sys2Proof.Machine

/-- `busy = 1` exactly when `PHASE = BUSY` (R30). -/
def State.busy (s : State) : Bool := s.phase = .busy

/-- `done = 1` exactly when `PHASE = DONE` (R30). -/
def State.done (s : State) : Bool := s.phase = .done

/-- `block_out`: the four words when `PHASE = DONE`, else 64 zero bits (R30). -/
def State.blockOut (s : State) : BitVec 64 := if s.phase = .done then s.w.toPort else 0

end Sys2Proof.Machine
end

