-- ==== Sys2Proof/Machine/Ops.lean ====
section
/-! DEFINITION. The named operations over the registers: every meaning reads and writes the state through
these. The engine has no data memory (20_memory R50), so there is no memory operation; it takes no
exception and has no return from one (60_exceptions R175, R181, R182), so there is no such operation
either (log 8, log 9). -/

namespace Sys2Proof.Machine

/-- The key space: the byte at an index, always reduced modulo 10 (R52). -/
def readKey (keyr : KeyRegs) (n : Nat) : Byte :=
  keyr[n % 10]'(Nat.mod_lt n (by decide))

/-- Write the four state words, together (R22). -/
def State.writeWords (s : State) (x : Words) : State := { s with w := x }

/-- Load the operands of a start, all bits of both ports in one step (R60, R149). -/
def State.loadOperands (s : State) (key : BitVec 80) (block : BitVec 64) : State :=
  { s with keyr := keyOfPort key, w := Words.ofPort block }

/-- Write the three control registers (R25, R27, R28). -/
def State.setControl (s : State) (m : Mode) (c : BitVec 6) (p : Phase) : State :=
  { s with mode := m, ctr := c, phase := p }

/-- Every register at its reset value; the ROM has no reset (R33, R200). -/
def State.resetRegisters (s : State) : State :=
  { s with
    w := State.reset.w, keyr := State.reset.keyr, ctr := State.reset.ctr
    mode := State.reset.mode, phase := State.reset.phase }

/-- Put a value on a unit's output wires (log 2). -/
def State.emit (s : State) (v : UnitOut) : State := { s with unitOut := v }

/-- The port values the host drives in the next step (R29; log 1). -/
def State.sample (s : State) : Ports := s.host.headD Ports.idle

/-- The end of a step: the sample has been used, and no value stays on a wire (R32). -/
def State.endStep (s : State) : State := { s with host := s.host.tail, unitOut := .none }

/-- The host will drive `p` in the next step, ahead of what it had planned. -/
def State.drive (s : State) (p : Ports) : State := { s with host := p :: s.host }

end Sys2Proof.Machine
end

