-- ==== Sys2Proof/Machine/Commands.lean ====
section
/-! DEFINITION. The host commands `RESET` (70_reset_and_hazards R200), `NOP`, `START_ENC`, `START_DEC`
(44_driver R147 to R150). -/

namespace Sys2Proof.Machine

/-- `RESET`, in any phase: every register to its reset value (R200). -/
def execReset (_start _decrypt : Bool) (s : State) : Host.Outcome State Fault Refusal :=
  .next s.resetRegisters

/-- `NOP`: no register is written (R147). -/
def execNop (_decrypt : Bool) (s : State) : Host.Outcome State Fault Refusal :=
  .next s

/-- What both starts do: accepted in IDLE or DONE, in any other phase without effect (R148; log 5). -/
def State.startWith (s : State) (key : BitVec 80) (block : BitVec 64) (m : Mode) (c : BitVec 6) : State :=
  if s.phase.acceptsStart then (s.loadOperands key block).setControl m c .busy else s

/-- `START_ENC` (R149). -/
def execStartEnc (key : BitVec 80) (block : BitVec 64) (s : State) : Host.Outcome State Fault Refusal :=
  .next (s.startWith key block .encrypt 1)

/-- `START_DEC` (R150). -/
def execStartDec (key : BitVec 80) (block : BitVec 64) (s : State) : Host.Outcome State Fault Refusal :=
  .next (s.startWith key block .decrypt 32)

end Sys2Proof.Machine
end

