-- ==== Sys2Proof/Machine/KeySchedule.lean ====
section
/-! DEFINITION. Key schedule access, the operation `CV` (42_key_schedule R115). There is no expanded key:
each byte is read from the key registers in the step that needs it (R119). -/

namespace Sys2Proof.Machine

/-- `CV(r, j) = KEYR[(4*(r - 1) + j) mod 10]` (R115). -/
def keyByte (keyr : KeyRegs) (r j : Nat) : Byte := readKey keyr (4 * (r - 1) + j)

/-- `CV`: the key schedule's output wires carry the byte. No register is written (R115). -/
def execCv (k : BitVec 5) (j : BitVec 2) (s : State) : Host.Outcome State Fault Refusal :=
  .next (s.emit (.byte (keyByte s.keyr (roundOf k) j.toNat)))

end Sys2Proof.Machine
end

