-- ==== Sys2Proof/Machine/GUnit.lean ====
section
/-! DEFINITION. The G-permutation: one forward stage `GS`, one inverse stage `GSI`, the four-stage chains
`G` and `G_INV` (41_g_permutation R101 to R105). The stage bytes are values of one step, not state
(R110). -/

namespace Sys2Proof.Machine

/-- `GS(L, R, k) = (R, F(R xor k) xor L)` (R101). -/
def gStage (p : Byte × Byte) (k : Byte) : Byte × Byte :=
  (p.2, fLookup (p.2 ^^^ k) ^^^ p.1)

/-- `GSI(L', R', k) = (F(L' xor k) xor R', L')` (R102). -/
def gStageInv (p : Byte × Byte) (k : Byte) : Byte × Byte :=
  (fLookup (p.1 ^^^ k) ^^^ p.2, p.1)

/-- `G(r, w)`: the key bytes in the order `j = 0, 1, 2, 3` (R103). -/
def gPerm (keyr : KeyRegs) (r : Nat) (w : Word) : Word :=
  let p0 := (hiByte w, loByte w)
  let p1 := gStage p0 (keyByte keyr r 0)
  let p2 := gStage p1 (keyByte keyr r 1)
  let p3 := gStage p2 (keyByte keyr r 2)
  let p4 := gStage p3 (keyByte keyr r 3)
  joinBytes p4.1 p4.2

/-- `G_INV(r, w)`: the key bytes in the order `j = 3, 2, 1, 0` (R105). -/
def gPermInv (keyr : KeyRegs) (r : Nat) (w : Word) : Word :=
  let p4 := (hiByte w, loByte w)
  let p3 := gStageInv p4 (keyByte keyr r 3)
  let p2 := gStageInv p3 (keyByte keyr r 2)
  let p1 := gStageInv p2 (keyByte keyr r 1)
  let p0 := gStageInv p1 (keyByte keyr r 0)
  joinBytes p0.1 p0.2

/-- `GS`: the stage's output wires carry the new pair. No register is written (R101). -/
def execGs (l r kb : Byte) (s : State) : Host.Outcome State Fault Refusal :=
  .next (s.emit (.pair (gStage (l, r) kb).1 (gStage (l, r) kb).2))

/-- `GSI`: the stage's output wires carry the old pair. No register is written (R102). -/
def execGsi (l r kb : Byte) (s : State) : Host.Outcome State Fault Refusal :=
  .next (s.emit (.pair (gStageInv (l, r) kb).1 (gStageInv (l, r) kb).2))

/-- `G`: the unit's output wires carry the permuted word. No register is written (R103). -/
def execG (k : BitVec 5) (w : Word) (s : State) : Host.Outcome State Fault Refusal :=
  .next (s.emit (.word (gPerm s.keyr (roundOf k) w)))

/-- `G_INV`: the unit's output wires carry the word `G` permutes to the input. No register is written
(R105). -/
def execGInv (k : BitVec 5) (w : Word) (s : State) : Host.Outcome State Fault Refusal :=
  .next (s.emit (.word (gPermInv s.keyr (roundOf k) w)))

end Sys2Proof.Machine
end

