-- ==== Sys2Proof/Machine/Rounds.lean ====
section
/-! DEFINITION. The round rules and their inverses, the routing table of 43_round_rules R135 written out
literally (R138). A round operation writes the four state words together and nothing else; the counter
advance belongs to the step (R125; log 6). -/

namespace Sys2Proof.Machine

/-- `RULE_A(r)` on the words (R127). -/
def ruleA (keyr : KeyRegs) (r : Nat) (x : Words) : Words :=
  let g := gPerm keyr r x.w1
  ⟨g ^^^ x.w4 ^^^ counterWord r, g, x.w2, x.w3⟩

/-- `RULE_B(r)` on the words (R129). -/
def ruleB (keyr : KeyRegs) (r : Nat) (x : Words) : Words :=
  let g := gPerm keyr r x.w1
  ⟨x.w4, g, x.w1 ^^^ x.w2 ^^^ counterWord r, x.w3⟩

/-- `RULE_A_INV(r)` on the words (R131). -/
def ruleAInv (keyr : KeyRegs) (r : Nat) (x : Words) : Words :=
  let h := gPermInv keyr r x.w2
  ⟨h, x.w3, x.w4, x.w1 ^^^ x.w2 ^^^ counterWord r⟩

/-- `RULE_B_INV(r)` on the words (R133). -/
def ruleBInv (keyr : KeyRegs) (r : Nat) (x : Words) : Words :=
  let h := gPermInv keyr r x.w2
  ⟨h, h ^^^ x.w3 ^^^ counterWord r, x.w4, x.w1⟩

/-- `RULE_A` (R127). -/
def execRuleA (k : BitVec 5) (s : State) : Host.Outcome State Fault Refusal :=
  .next (s.writeWords (ruleA s.keyr (roundOf k) s.w))

/-- `RULE_B` (R129). -/
def execRuleB (k : BitVec 5) (s : State) : Host.Outcome State Fault Refusal :=
  .next (s.writeWords (ruleB s.keyr (roundOf k) s.w))

/-- `RULE_A_INV` (R131). -/
def execRuleAInv (k : BitVec 5) (s : State) : Host.Outcome State Fault Refusal :=
  .next (s.writeWords (ruleAInv s.keyr (roundOf k) s.w))

/-- `RULE_B_INV` (R133). -/
def execRuleBInv (k : BitVec 5) (s : State) : Host.Outcome State Fault Refusal :=
  .next (s.writeWords (ruleBInv s.keyr (roundOf k) s.w))

end Sys2Proof.Machine
end

