-- ==== Sys2Proof/Machine/Dispatch.lean ====
section
/-! DEFINITION. One arm per operation: a direct call of its meaning. -/

namespace Sys2Proof.Machine

/-- What an operation does. -/
def exec (i : Instr) (s : State) : Host.Outcome State Fault Refusal :=
  match i with
  -- the host's commands (44_driver, 70_reset_and_hazards)
  | .reset start decrypt => Sys2Proof.Machine.execReset start decrypt s
  | .nop decrypt => Sys2Proof.Machine.execNop decrypt s
  | .startEnc key block => Sys2Proof.Machine.execStartEnc key block s
  | .startDec key block => Sys2Proof.Machine.execStartDec key block s
  -- the round operations (43_round_rules)
  | .ruleA k => Sys2Proof.Machine.execRuleA k s
  | .ruleB k => Sys2Proof.Machine.execRuleB k s
  | .ruleAInv k => Sys2Proof.Machine.execRuleAInv k s
  | .ruleBInv k => Sys2Proof.Machine.execRuleBInv k s
  -- the sub-operations (41_g_permutation, 42_key_schedule, 40_ftable)
  | .g k w => Sys2Proof.Machine.execG k w s
  | .gInv k w => Sys2Proof.Machine.execGInv k w s
  | .gs l r kb => Sys2Proof.Machine.execGs l r kb s
  | .gsi l r kb => Sys2Proof.Machine.execGsi l r kb s
  | .cv k j => Sys2Proof.Machine.execCv k j s
  | .f a => Sys2Proof.Machine.execF a s

end Sys2Proof.Machine
end

