-- ==== Sys2Proof/WellFormed.lean ====
section
/-! DEFINITION. Which terms of `Instr` are operations that some format word encodes. Bit 3 of the step
number is fixed by the rule (30_encoding R75); every other field may hold any value (R72, R81). -/

namespace Sys2Proof

/-- The low bit of the group number, `K[3]`: clear in groups 0 and 2, set in groups 1 and 3 (R75). -/
def groupLowBit (k : BitVec 5) : Bool := k.getLsbD 3

/-- The operation has an encoding. -/
def Instr.wellFormed : Instr → Bool
  | .reset _ _ => true
  | .nop _ => true
  | .startEnc _ _ => true
  | .startDec _ _ => true
  | .ruleA k => !groupLowBit k
  | .ruleB k => groupLowBit k
  | .ruleAInv k => !groupLowBit k
  | .ruleBInv k => groupLowBit k
  | .g _ _ => true
  | .gInv _ _ => true
  | .gs _ _ _ => true
  | .gsi _ _ _ => true
  | .cv _ _ => true
  | .f _ => true

end Sys2Proof
end

