-- ==== Sys2Proof/Decode.lean ====
section
/-! DEFINITION. The decoder, from what a unit is handed to the operation it performs (30_encoding R71 to
R79), then the encoder, then the opcode table as rows of width, mask and match (R84) and the reading of
a bare table word. -/

namespace Sys2Proof

/-! ## Decoding -/

/-- The command table of R71. Every one of the eight values is a command (R72). -/
def decodeCommand (cmd : BitVec 3) (keyIn : BitVec 80) (blockIn : BitVec 64) : Instr :=
  if cmd.getLsbD 2 then .reset (cmd.getLsbD 1) (cmd.getLsbD 0)
  else if cmd.getLsbD 1 then
    if cmd.getLsbD 0 then .startDec keyIn blockIn else .startEnc keyIn blockIn
  else .nop (cmd.getLsbD 0)

/-- The schedule table of R75: bit 5 is the direction, bit 3 the low bit of the group number. -/
def decodeSchedule (sw : BitVec 6) : Instr :=
  let k := sw.extractLsb' 0 5
  if sw.getLsbD 5 then
    if sw.getLsbD 3 then .ruleBInv k else .ruleAInv k
  else
    if sw.getLsbD 3 then .ruleB k else .ruleA k

/-- The operation a unit performs on what it is handed. Total: no encoding is reserved (R81). -/
def decode : Issue → Instr
  | .command cmd keyIn blockIn => decodeCommand cmd keyIn blockIn
  | .schedule sw => decodeSchedule sw
  | .gUnit gsel k w => if gsel.getLsbD 0 then .gInv k w else .g k w
  | .gStage gsel l r kb => if gsel.getLsbD 0 then .gsi l r kb else .gs l r kb
  | .keySchedule ksel => .cv (ksel.extractLsb' 2 5) (ksel.extractLsb' 0 2)
  | .fTable faddr => .f faddr

/-! ## Encoding -/

/-- The format word and operands of an operation. `RESET` and `NOP` use no operand port, and the ports
they are issued with may hold any value (R82): zero here. -/
def encode : Instr → Issue
  | .reset start decrypt => .command (1#1 ++ BitVec.ofBool start ++ BitVec.ofBool decrypt) 0 0
  | .nop decrypt => .command (0#2 ++ BitVec.ofBool decrypt) 0 0
  | .startEnc key block => .command 0b010#3 key block
  | .startDec key block => .command 0b011#3 key block
  | .ruleA k => .schedule (0#1 ++ k)
  | .ruleB k => .schedule (0#1 ++ k)
  | .ruleAInv k => .schedule (1#1 ++ k)
  | .ruleBInv k => .schedule (1#1 ++ k)
  | .g k w => .gUnit 0#1 k w
  | .gInv k w => .gUnit 1#1 k w
  | .gs l r kb => .gStage 0#1 l r kb
  | .gsi l r kb => .gStage 1#1 l r kb
  | .cv k j => .keySchedule (k ++ j)
  | .f a => .fTable a

/-! ## The opcode table -/

/-- The unit an issue is addressed to. -/
def Issue.unit : Issue → FunctionalUnit
  | .command _ _ _ => .command
  | .schedule _ => .schedule
  | .gUnit _ _ _ => .gUnit
  | .gStage _ _ _ _ => .gStage
  | .keySchedule _ => .keySchedule
  | .fTable _ => .fTable

/-- The format word of an issue, as a number. -/
def Issue.word : Issue → Nat
  | .command cmd _ _ => cmd.toNat
  | .schedule sw => sw.toNat
  | .gUnit gsel _ _ => gsel.toNat
  | .gStage gsel _ _ _ => gsel.toNat
  | .keySchedule ksel => ksel.toNat
  | .fTable faddr => faddr.toNat

/-- The number of bits of a unit's format (R70). -/
def FunctionalUnit.width : FunctionalUnit → Nat
  | .command => 3
  | .schedule => 6
  | .gUnit => 1
  | .gStage => 1
  | .keySchedule => 7
  | .fTable => 8

/-- Why a bare word is no instruction. -/
inductive DecodeError where
  /-- The word has more bits than the format of the unit it is presented to. -/
  | wordTooWide (unit : FunctionalUnit)
  deriving DecidableEq, Repr

/-- The operation a unit performs on a format word alone, every operand beside it zero. -/
def decodeWord (unit : FunctionalUnit) (w : Nat) : Except DecodeError Instr :=
  if w < 2 ^ unit.width then
    .ok (decode (match unit with
      | .command => .command (BitVec.ofNat 3 w) 0 0
      | .schedule => .schedule (BitVec.ofNat 6 w)
      | .gUnit => .gUnit (BitVec.ofNat 1 w) 0 0
      | .gStage => .gStage (BitVec.ofNat 1 w) 0 0 0
      | .keySchedule => .keySchedule (BitVec.ofNat 7 w)
      | .fTable => .fTable (BitVec.ofNat 8 w)))
  else .error (.wordTooWide unit)

/-- One row of spec/opcode_table.json: a word of the unit's format selects the row when
`word AND mask = pattern` (R84). -/
structure OpcodeRow where
  mnemonic : String
  unit : FunctionalUnit
  mask : Nat
  pattern : Nat
  deriving DecidableEq, Repr

/-- The word selects the row. -/
def OpcodeRow.selects (row : OpcodeRow) (w : Nat) : Bool :=
  w < 2 ^ row.unit.width && w &&& row.mask == row.pattern

/-- The row of an operation. -/
def Instr.row : Instr → OpcodeRow
  | .reset _ _ => ⟨"RESET", .command, 0b100, 0b100⟩
  | .nop _ => ⟨"NOP", .command, 0b110, 0b000⟩
  | .startEnc _ _ => ⟨"START_ENC", .command, 0b111, 0b010⟩
  | .startDec _ _ => ⟨"START_DEC", .command, 0b111, 0b011⟩
  | .ruleA _ => ⟨"RULE_A", .schedule, 0b101000, 0b000000⟩
  | .ruleB _ => ⟨"RULE_B", .schedule, 0b101000, 0b001000⟩
  | .ruleAInv _ => ⟨"RULE_A_INV", .schedule, 0b101000, 0b100000⟩
  | .ruleBInv _ => ⟨"RULE_B_INV", .schedule, 0b101000, 0b101000⟩
  | .g _ _ => ⟨"G", .gUnit, 0b1, 0b0⟩
  | .gInv _ _ => ⟨"G_INV", .gUnit, 0b1, 0b1⟩
  | .gs _ _ _ => ⟨"GS", .gStage, 0b1, 0b0⟩
  | .gsi _ _ _ => ⟨"GSI", .gStage, 0b1, 0b1⟩
  | .cv _ _ => ⟨"CV", .keySchedule, 0, 0⟩
  | .f _ => ⟨"F", .fTable, 0, 0⟩

/-- The whole table, in its own order: the row of each operation, operands zero. -/
def opcodeTable : List OpcodeRow :=
  [Instr.row (.reset false false), Instr.row (.nop false), Instr.row (.startEnc 0 0),
    Instr.row (.startDec 0 0), Instr.row (.ruleA 0), Instr.row (.ruleB 8), Instr.row (.ruleAInv 0),
    Instr.row (.ruleBInv 8), Instr.row (.g 0 0), Instr.row (.gInv 0 0), Instr.row (.gs 0 0 0),
    Instr.row (.gsi 0 0 0), Instr.row (.cv 0 0), Instr.row (.f 0)]

/-- The rows a word of `nbits` bits may belong to: those whose format has that width; all of them when
the width has been rounded up to a whole byte (log 16). -/
def rowsOfWidth (nbits : Nat) : List OpcodeRow :=
  if nbits = 8 then opcodeTable else opcodeTable.filter (fun row => row.unit.width = nbits)

/-- The operation a bare table word stands for. The word does not say which unit it is presented to, and
the formats overlap, so of the rows of its width the first whose pattern IS the word is taken, else the
first that the word selects (log 16). The engine itself never decodes so: its phase fixes the format
(R73). -/
def decodeTableWord (nbits w : Nat) : Option Instr :=
  let rows := rowsOfWidth nbits
  match (rows.find? (fun row => row.pattern = w)).or (rows.find? (fun row => row.selects w)) with
  | some row => (decodeWord row.unit w).toOption
  | none => none

end Sys2Proof
end

