-- ==== Sys2Proof/Config.lean ====
section
/-! DEFINITION. The engine's parameters: those the spec fixes (00_scope R8) and the one it leaves open
(R9, 70_reset_and_hazards R217). -/

namespace Sys2Proof.Config

/-- `KEY_BYTES`: bytes of a key (R8). -/
abbrev keyBytes : Nat := 10

/-- `BLOCK_BYTES`: bytes of a block (R8). -/
abbrev blockBytes : Nat := 8

/-- `F_ENTRIES`: entries of the F-table (R8). -/
abbrev fEntries : Nat := 256

/-- `ROUNDS`: rounds of one operation, and the largest value of the round counter (R8). -/
abbrev rounds : Nat := 32

/-- Key bytes one round consumes (R8). -/
abbrev keyBytesPerRound : Nat := 4

/-- `T_STEP`, the physical duration of one step: open, and no rule depends on it (R9, R217; log 10).
Nothing in the model reads it. -/
opaque tStep : Nat

end Sys2Proof.Config
end

