-- ==== Sys2Proof/Machine/Driver.lean ====
section
/-! DEFINITION. The whole-operation functions of the cipher driver, `ENCRYPT_BLOCK` and `DECRYPT_BLOCK`
(44_driver R155, R156): what the engine's steps must add up to. They are the spec's own functions of a
key and a block, written apart from the step function. -/

namespace Sys2Proof.Machine

/-- Rounds 1..8 and 17..24 use rule A, the others rule B (R151, R152). -/
abbrev UsesRuleA (r : Nat) : Prop := (1 ≤ r ∧ r ≤ 8) ∨ (17 ≤ r ∧ r ≤ 24)

/-- The encryption round for counter `r` (R151). -/
def encryptRound (keyr : KeyRegs) (r : Nat) (x : Words) : Words :=
  if UsesRuleA r then ruleA keyr r x else ruleB keyr r x

/-- The decryption round for counter `r` (R152). -/
def decryptRound (keyr : KeyRegs) (r : Nat) (x : Words) : Words :=
  if UsesRuleA r then ruleAInv keyr r x else ruleBInv keyr r x

/-- Encryption rounds `1, 2, ..., n`, in this order (R155). -/
def encryptRounds (keyr : KeyRegs) : Nat → Words → Words
  | 0, x => x
  | n + 1, x => encryptRound keyr (n + 1) (encryptRounds keyr n x)

/-- Decryption rounds `n, ..., 2, 1`, in this order (R156). -/
def decryptRounds (keyr : KeyRegs) : Nat → Words → Words
  | 0, x => x
  | n + 1, x => decryptRounds keyr n (decryptRound keyr (n + 1) x)

/-- `ENCRYPT_BLOCK` of ten key bytes and eight block bytes (R155). -/
def encryptBlock (k : KeyRegs) (b : Vector Byte 8) : Vector Byte 8 :=
  (encryptRounds k Config.rounds (Words.ofBytes b)).toBytes

/-- `DECRYPT_BLOCK` of ten key bytes and eight block bytes (R156). -/
def decryptBlock (k : KeyRegs) (b : Vector Byte 8) : Vector Byte 8 :=
  (decryptRounds k Config.rounds (Words.ofBytes b)).toBytes

end Sys2Proof.Machine
end

