-- ==== Sys2Proof/Machine/Fetch.lean ====
section
/-! DEFINITION. What the step does around the operation it performs: which operation that is (30_encoding
R73 to R75), the counter advance of a round (44_driver R151, R152), and how the engine is brought to
perform a given operation next. -/

namespace Sys2Proof.Machine

/-- `CMD[2:0] = rst || start || decrypt` (R71). -/
def Ports.cmd (p : Ports) : BitVec 3 :=
  BitVec.ofBool p.rst ++ BitVec.ofBool p.start ++ BitVec.ofBool p.decrypt

/-- `SW[5:0] = MODE || (CTR - 1)[4:0]` (R74). -/
def State.scheduleWord (s : State) : BitVec 6 := s.mode.bit ++ (s.ctr - 1).setWidth 5

/-- `CTR` is a round counter: in 1..32 (R26). -/
def State.counterInRange (s : State) : Bool := 1 ≤ s.ctr.toNat && s.ctr.toNat ≤ 32

/-- What the step hands to which unit: `rst` first, then a round in progress, then the command (R73,
R146). A state the spec gives no meaning is refused, whatever the ports say (R34; log 4). -/
def State.fetch (s : State) : Except Refusal Issue :=
  if s.phase = .reserved then .error .reservedPhase
  else if s.counterInRange = false then .error .counterOutOfRange
  else if s.sample.rst = false ∧ s.phase = .busy then .ok (.schedule s.scheduleWord)
  else .ok (.command s.sample.cmd s.sample.keyIn s.sample.blockIn)

/-- The counter advance and the end of an operation (R151, R152): the last round leaves `CTR` and sets
DONE, every other round moves `CTR` by one. -/
def State.advanceCounter (s : State) : State :=
  match s.mode with
  | .encrypt => if s.ctr = 32 then { s with phase := .done } else { s with ctr := s.ctr + 1 }
  | .decrypt => if s.ctr = 1 then { s with phase := .done } else { s with ctr := s.ctr - 1 }

/-- What the step adds after the operation: the counter advance of a round, and the end of the step. -/
def State.retire (s : State) : Issue → State
  | .schedule _ => s.advanceCounter.endStep
  | .command _ _ _ => s.endStep
  | .gUnit _ _ _ => s.endStep
  | .gStage _ _ _ _ => s.endStep
  | .keySchedule _ => s.endStep
  | .fTable _ => s.endStep

/-! ## Presenting an operation -/

/-- The counter register of step number `k`. -/
def counterOf (k : BitVec 5) : BitVec 6 := k.setWidth 6 + 1

/-- A phase and a counter in which the engine looks at commands. -/
def State.readyForCommand (s : State) : State :=
  { s with
    phase := if s.phase.acceptsStart then s.phase else .idle
    ctr := if s.counterInRange then s.ctr else 1 }

/-- The next step performs round `k + 1` in direction `m`; the host drives nothing. -/
def State.readyForRound (s : State) (m : Mode) (k : BitVec 5) : State :=
  (s.setControl m (counterOf k) .busy).drive Ports.idle

/-- Bring the engine to where its very next step performs the operation. A command is driven on the
ports; a round is reached through `PHASE`, `MODE` and `CTR`. A sub-operation is never issued alone (R2):
the engine is brought to a round that invokes it with these operands: `G` and `G_INV` on the word the
round feeds them, a stage as the first one of that chain, `CV` in its own round, `F` as the first lookup
of round 1 (log 13). -/
def State.present (s : State) : Instr → State
  | .reset start decrypt => s.readyForCommand.drive ⟨true, start, decrypt, 0, 0⟩
  | .nop decrypt => s.readyForCommand.drive ⟨false, false, decrypt, 0, 0⟩
  | .startEnc key block => s.readyForCommand.drive ⟨false, true, false, key, block⟩
  | .startDec key block => s.readyForCommand.drive ⟨false, true, true, key, block⟩
  | .ruleA k => s.readyForRound .encrypt k
  | .ruleB k => s.readyForRound .encrypt k
  | .ruleAInv k => s.readyForRound .decrypt k
  | .ruleBInv k => s.readyForRound .decrypt k
  | .g k w => (s.writeWords { s.w with w1 := w }).readyForRound .encrypt k
  | .gInv k w => (s.writeWords { s.w with w2 := w }).readyForRound .decrypt k
  | .gs l r kb =>
    { s.writeWords { s.w with w1 := joinBytes l r } with keyr := s.keyr.set 0 kb }.readyForRound .encrypt 0
  | .gsi l r kb =>
    { s.writeWords { s.w with w2 := joinBytes l r } with keyr := s.keyr.set 3 kb }.readyForRound .decrypt 0
  | .cv k _ => s.readyForRound .encrypt k
  | .f a =>
    { s.writeWords { s.w with w1 := joinBytes (hiByte s.w.w1) a } with keyr := s.keyr.set 0 0 }.readyForRound .encrypt 0

end Sys2Proof.Machine
end

