-- ==== Sys2Proof/Machine/Step.lean ====
section
/-! DEFINITION. One step of the engine (44_driver R146): the operation of this step is fetched, decoded,
performed, and the step ends. -/

namespace Sys2Proof.Machine

/-- One step (R14, R145, R146). -/
def step (s : State) : Host.Outcome State Fault Refusal :=
  match s.fetch with
  | .error r => .refused r
  | .ok issue =>
    match exec (decode issue) s with
    | .next t => .next (t.retire issue)
    | .fault f => .fault f
    | .refused r => .refused r

/-- The state whose very next step performs the operation a table word stands for, its operand words
zero (log 13, log 16). -/
def State.withFetchWord (s : State) (nbits w : Nat) : State :=
  match decodeTableWord nbits w with
  | some i => s.present i
  | none => s

end Sys2Proof.Machine
end

