-- ==== Sys2Proof/Machine/HostProgram.lean ====
section
/-! DEFINITION. Host programs in the notation of 30_encoding R82 and R83: a program is the list of port
samples the host drives, one line a step. How many lines `WAIT_DONE` stands for depends on the state the
engine is in. Ports a command does not use may hold any value; zero here. -/

namespace Sys2Proof.Machine

/-- `RESET` (R82). -/
def lineReset : Ports := ⟨true, false, false, 0, 0⟩

/-- `START_ENC key=.. block=..` (R82). -/
def lineStartEnc (key : BitVec 80) (block : BitVec 64) : Ports := ⟨false, true, false, key, block⟩

/-- `START_DEC key=.. block=..` (R82). -/
def lineStartDec (key : BitVec 80) (block : BitVec 64) : Ports := ⟨false, true, true, key, block⟩

/-- `NOP*n` (R83). -/
def linesNop (n : Nat) : List Ports := List.replicate n Ports.idle

/-- `WAIT_DONE` with at most `n` lines left: a `NOP`, and another as long as `done = 0` after it. No answer
when that is not enough, or when a step does not complete. -/
def State.waitDoneWithin : Nat → State → Option (List Ports)
  | 0, _ => none
  | n + 1, s =>
    match step (s.drive Ports.idle) with
    | .next t => if t.done then some [Ports.idle] else (State.waitDoneWithin n t).map (Ports.idle :: ·)
    | .fault _ => none
    | .refused _ => none

/-- `WAIT_DONE` in this state: `NOP` repeated until `done = 1` after a step (R83). A round in progress has at
most 32 rounds to go, and in IDLE no `NOP` leads to `done = 1`, so 32 lines are enough whenever any number
is, and no answer means that the wait never ends (log 17). -/
def State.waitDone (s : State) : Option (List Ports) := State.waitDoneWithin Config.rounds s

/-- A start line and the `WAIT_DONE` of the state it leads to. -/
def State.startAndWait (s : State) (start : Ports) : Option (List Ports) :=
  match step (s.drive start) with
  | .next t => t.waitDone.map (start :: ·)
  | .fault _ => none
  | .refused _ => none

/-- `encrypt_block(key, block)` in this state, up to its `READ`, which is no step (R83). -/
def State.programEncrypt (s : State) (key : BitVec 80) (block : BitVec 64) : Option (List Ports) :=
  s.startAndWait (lineStartEnc key block)

/-- `decrypt_block(key, block)` in this state, up to its `READ` (R83). -/
def State.programDecrypt (s : State) (key : BitVec 80) (block : BitVec 64) : Option (List Ports) :=
  s.startAndWait (lineStartDec key block)

/-- `READ`: the host observes `block_out`; valid only when `done = 1` (R83, R190). -/
def State.read (s : State) : Option (BitVec 64) := if s.done then some s.blockOut else none

end Sys2Proof.Machine
end

