-- ==== Sys2Proof/Safety.lean ====
section
/-! DEFINITION. What a good state of the engine is, in the terms the statements use. A run is safe when every
step answers a next state: the engine has no error path (44_driver R159), and the one refusal is a step
from a state that is not `Legal` (10_state R34). -/

namespace Sys2Proof.Machine

/-- The states the spec gives a meaning: a legal phase code and a round counter in 1..32 (R26, R34). -/
abbrev State.Legal (s : State) : Prop := s.phase ≠ .reserved ∧ 1 ≤ s.ctr.toNat ∧ s.ctr.toNat ≤ 32

/-- The counter of the last round of a direction: 32 for encryption, 1 for decryption (R151, R152). -/
def Mode.lastCounter : Mode → BitVec 6
  | .encrypt => 32
  | .decrypt => 1

/-- Every register holds its reset value (R33). -/
abbrev State.RegistersReset (s : State) : Prop :=
  s.w = State.reset.w ∧ s.keyr = State.reset.keyr ∧ s.ctr = State.reset.ctr ∧ s.mode = State.reset.mode
    ∧ s.phase = State.reset.phase

/-- What every run from reset keeps: the state is legal (R26, R34); in IDLE nothing has been written since
reset (R28, R33); in DONE the counter is the last one used (R153); no unit value outlives its step (R32). -/
abbrev State.Inv (s : State) : Prop :=
  s.Legal ∧ (s.phase = .idle → s.RegistersReset) ∧ (s.phase = .done → s.ctr = s.mode.lastCounter)
    ∧ s.unitOut = .none

end Sys2Proof.Machine
end

