-- ==== Sys2Proof/Certificates/Slice0/Obligations.lean ====
section
/-! DEFINITION. The statements for the provers, in the order of the spec's files. A statement about a step
takes a `Legal` state: every other state is refused (10_state R34), which is a statement of its own. -/

open Sys2Proof Sys2Proof.Machine

/-! ## Encodings (30_encoding) -/

/-- The encodings of 95_test_vectors section 5.2, written out bit by bit. -/
def Obligations.WordsOfTheSpecDecodeAsListed : Prop :=
  (∀ key block, decode (.command 0b100#3 key block) = .reset false false)
    ∧ (∀ key block, decode (.command 0b111#3 key block) = .reset true true)
    ∧ (∀ key block, decode (.command 0b000#3 key block) = .nop false)
    ∧ (∀ key block, decode (.command 0b010#3 key block) = .startEnc key block)
    ∧ (∀ key block, decode (.command 0b011#3 key block) = .startDec key block)
    ∧ decode (.schedule 0b000111#6) = .ruleA 7
    ∧ decode (.schedule 0b011000#6) = .ruleB 24
    ∧ decode (.schedule 0b110000#6) = .ruleAInv 16
    ∧ decode (.schedule 0b101111#6) = .ruleBInv 15
    ∧ decode (.keySchedule 0b0001010#7) = .cv 2 2
    ∧ decode (.keySchedule 0b1111111#7) = .cv 31 3

/-- R71: `CMD[2:0] = rst || start || decrypt`, and its decode table. -/
def Obligations.CommandPortsDecodeByTheTable : Prop :=
  ∀ p : Ports,
    p.cmd.getLsbD 2 = p.rst ∧ p.cmd.getLsbD 1 = p.start ∧ p.cmd.getLsbD 0 = p.decrypt
      ∧ decode (.command p.cmd p.keyIn p.blockIn) =
        if p.rst then .reset p.start p.decrypt
        else if p.start then
          if p.decrypt then .startDec p.keyIn p.blockIn else .startEnc p.keyIn p.blockIn
        else .nop p.decrypt

/-- R75: the schedule word of every direction and round counter decodes to the rule of doc00's ranges, and
of the bits of `SW` only 5 and 3 select it. -/
def Obligations.ScheduleWordSelectsTheRule : Prop :=
  (∀ r : Nat, 1 ≤ r → r ≤ 32 →
    let k := BitVec.ofNat 5 (r - 1)
    decode (.schedule (0#1 ++ k)) =
        (if (1 ≤ r ∧ r ≤ 8) ∨ (17 ≤ r ∧ r ≤ 24) then .ruleA k else .ruleB k)
      ∧ decode (.schedule (1#1 ++ k)) =
        (if (1 ≤ r ∧ r ≤ 8) ∨ (17 ≤ r ∧ r ≤ 24) then .ruleAInv k else .ruleBInv k))
    ∧ ∀ sw : BitVec 6,
      (sw &&& 0b101000#6 = 0b000000#6 → decode (.schedule sw) = .ruleA (sw.extractLsb' 0 5))
        ∧ (sw &&& 0b101000#6 = 0b001000#6 → decode (.schedule sw) = .ruleB (sw.extractLsb' 0 5))
        ∧ (sw &&& 0b101000#6 = 0b100000#6 → decode (.schedule sw) = .ruleAInv (sw.extractLsb' 0 5))
        ∧ (sw &&& 0b101000#6 = 0b101000#6 → decode (.schedule sw) = .ruleBInv (sw.extractLsb' 0 5))

/-- R77: the G unit and its stages take their direction from `MODE`. -/
def Obligations.DirectionBitSelectsGOrItsInverse : Prop :=
  ∀ (m : Mode) (k : BitVec 5) (w : Word) (l r kb : Byte),
    decode (.gUnit m.bit k w) = (match m with | .encrypt => .g k w | .decrypt => .gInv k w)
      ∧ decode (.gStage m.bit l r kb) = (match m with | .encrypt => .gs l r kb | .decrypt => .gsi l r kb)

/-- R78: `KSEL = K || j`, as a number `4*K + j`, and the key index is `KSEL mod 10`. -/
def Obligations.KeySelectWordIsTheIndexModuloTen : Prop :=
  ∀ (ksel : BitVec 7) (s : State), ∃ (k : BitVec 5) (j : BitVec 2),
    decode (.keySchedule ksel) = .cv k j ∧ k ++ j = ksel ∧ ksel.toNat = 4 * k.toNat + j.toNat
      ∧ exec (decode (.keySchedule ksel)) s =
        .next { s with unitOut := .byte (s.keyr[ksel.toNat % 10]'(Nat.mod_lt _ (by decide))) }

/-- Decoding the encoding of a well-formed operation gives it back, every operand included. -/
def Obligations.DecodeOfEncodeGivesTheOperation : Prop :=
  ∀ i : Instr, i.wellFormed = true → decode (encode i) = i

/-- R81: whatever a unit is handed decodes to an operation that has an encoding, and encoding that
operation gives the same word at the same unit. That the word comes back bit by bit for `RESET` and `NOP`
too, whose low bits R72 lets the engine ignore, is the model's choice: it keeps them as operands (log 3). The
operands beside the word are not compared. -/
def Obligations.EveryWordOfEveryFormatDecodes : Prop :=
  ∀ e : Issue, (decode e).wellFormed = true
    ∧ (encode (decode e)).unit = e.unit ∧ (encode (decode e)).word = e.word

/-- R84: the row of the operation a word decodes to is in the table, belongs to the unit the word is handed
to, and is the only row of that unit that the word selects. That `G` and its stage `GS`, and `G_INV` and
`GSI`, which share a word in R84, are told apart by the unit is the model's choice (log 3). -/
def Obligations.OpcodeRowsAreDisjointAndCover : Prop :=
  (∀ e : Issue, (decode e).row ∈ opcodeTable ∧ (decode e).row.unit = e.unit)
    ∧ ∀ (e : Issue) (row : OpcodeRow), row ∈ opcodeTable → row.unit = e.unit →
      (row.selects e.word = true ↔ row = (decode e).row)

/-! ## State and outputs (10_state, 20_memory) -/

/-- R33: the reset values of the registers, and what the outputs show then. The two fields of the model's
own are no part of it. -/
def Obligations.ResetStateHoldsTheStatedValues : Prop :=
  State.reset.phase = .idle ∧ State.reset.phase.code = 0#2
    ∧ State.reset.mode = .encrypt ∧ State.reset.mode.bit = 0#1
    ∧ State.reset.ctr = 1#6
    ∧ State.reset.w.w1 = 0x0000#16 ∧ State.reset.w.w2 = 0x0000#16
    ∧ State.reset.w.w3 = 0x0000#16 ∧ State.reset.w.w4 = 0x0000#16
    ∧ (∀ (i : Nat) (h : i < 10), State.reset.keyr[i] = 0x00#8)
    ∧ State.reset.busy = false ∧ State.reset.done = false ∧ State.reset.blockOut = 0#64

/-- R30: the outputs as functions of the state. -/
def Obligations.OutputsAreFunctionsOfTheState : Prop :=
  ∀ s : State,
    (s.busy = true ↔ s.phase = .busy) ∧ (s.done = true ↔ s.phase = .done)
      ∧ (s.phase = .done → s.blockOut = s.w.w1 ++ s.w.w2 ++ s.w.w3 ++ s.w.w4)
      ∧ (s.phase ≠ .done → s.blockOut = 0#64)

/-- R55 to R57: the byte layout of blocks and keys, in words and on the ports. -/
def Obligations.ByteLayoutOfKeysAndBlocks : Prop :=
  (∀ b : Vector Byte 8,
    Words.ofPort (blockPortOfBytes b) = ⟨b[0] ++ b[1], b[2] ++ b[3], b[4] ++ b[5], b[6] ++ b[7]⟩
      ∧ (Words.ofBytes b).toPort = blockPortOfBytes b
      ∧ (Words.ofBytes b).toBytes = b
      ∧ ∀ (i : Nat) (h : i < 8), (blockPortOfBytes b).extractLsb' (56 - 8 * i) 8 = b[i])
    ∧ (∀ k : KeyRegs, keyOfPort (keyPortOfBytes k) = k
      ∧ ∀ (i : Nat) (h : i < 10), (keyPortOfBytes k).extractLsb' (72 - 8 * i) 8 = k[i])

/-! ## The F-table (40_ftable) -/

/-- R90: `F` hands back the ROM's entry, on the wires of its unit (log 2), and writes no register. -/
def Obligations.FAnswersTheTableEntry : Prop :=
  (∀ (a : Byte) (s : State), exec (.f a) s = .next { s with unitOut := .byte (fLookup a) })
    ∧ (∀ a : Byte, decode (.fTable a) = .f a)
    ∧ fLookup 0x00 = 0xa3 ∧ fLookup 0xff = 0x46 ∧ fLookup 0x7a = 0xd6

/-- R91: the ROM against the rule's second listing of it, sixteen bytes a line in address order. -/
def Obligations.FTableIsTheListingOfTheSpec : Prop :=
  ∀ a : Byte, fLookup a =
    (([0xa3d70983f848f6f4b321157899b1aff9, 0xe72d4d8ace4cca2e5295d91e4e384428,
        0x0adf02a017f1606812b77ac3e9fa3d53, 0x96846bbaf2639a197caee5f5f7166aa2,
        0x39b67b0fc193811beeb41aead0912fb8, 0x55b9da853f41bfe05a58805f660bd890,
        0x35d5c0a733066569450094566d989b76, 0x97fcb2c2b0fedb20e1ebd6e4dd474a1d,
        0x42ed9e6e493ccd4327d207d4dec76718, 0x89cb301f8dc68faac874dcc95d5c31a4,
        0x7088612c9f0d2b8750825464267d0340, 0x344b1c73d1c4fd3bccfb7fabe63e5ba5,
        0xad04239c145122f02979717eff8c0ee2, 0x0cefbc72756f37a1ecd38e628b8610e8,
        0x087711be924f24c532369dcff3a6bbac, 0x5e6ca9135725b5e3bda83a0105592a46] : List (BitVec 128)).getD
      (a.toNat / 16) 0).extractLsb' (120 - 8 * (a.toNat % 16)) 8

/-- R92: a permutation, without fixed point, and no involution: `F(F(a)) = a` at two addresses only. -/
def Obligations.FTableIsAPermutation : Prop :=
  (∀ a b : Byte, fLookup a = fLookup b → a = b)
    ∧ (∀ b : Byte, ∃ a : Byte, fLookup a = b)
    ∧ (∀ a : Byte, fLookup a ≠ a)
    ∧ (∀ a : Byte, fLookup (fLookup a) = a ↔ a = 0x9f ∨ a = 0xa4)

/-! ## The G-permutation (41_g_permutation) -/

/-- R101: one forward stage. The pair stands on the unit's wires, a field of the model's own (log 2). -/
def Obligations.GsAnswersTheForwardStage : Prop :=
  ∀ (l r kb : Byte) (s : State),
    exec (.gs l r kb) s = .next { s with unitOut := .pair r (fLookup (r ^^^ kb) ^^^ l) }

/-- R102: one inverse stage, and that it undoes `GS` and is undone by it. The pair stands on the unit's
wires (log 2). -/
def Obligations.GsiAnswersTheInverseStage : Prop :=
  ∀ (l r kb : Byte) (s : State),
    exec (.gsi l r kb) s = .next { s with unitOut := .pair (fLookup (l ^^^ kb) ^^^ r) l }
      ∧ (∃ l' r', exec (.gs l r kb) s = .next { s with unitOut := .pair l' r' }
        ∧ exec (.gsi l' r' kb) s = .next { s with unitOut := .pair l r })
      ∧ (∃ l' r', exec (.gsi l r kb) s = .next { s with unitOut := .pair l' r' }
        ∧ exec (.gs l' r' kb) s = .next { s with unitOut := .pair l r })

/-- R103 and R104: `G`, byte by byte, with the key bytes `j = 0, 1, 2, 3` of the round. The word stands on
the unit's wires (log 2). -/
def Obligations.GAnswersTheFourStageChain : Prop :=
  ∀ (k : BitVec 5) (w : Word) (s : State),
    let cv : Nat → Byte := fun j => s.keyr[(4 * ((k.toNat + 1) - 1) + j) % 10]'(Nat.mod_lt _ (by decide))
    let g1 : Byte := w.extractLsb' 8 8
    let g2 : Byte := w.extractLsb' 0 8
    let g3 : Byte := fLookup (g2 ^^^ cv 0) ^^^ g1
    let g4 : Byte := fLookup (g3 ^^^ cv 1) ^^^ g2
    let g5 : Byte := fLookup (g4 ^^^ cv 2) ^^^ g3
    let g6 : Byte := fLookup (g5 ^^^ cv 3) ^^^ g4
    exec (.g k w) s = .next { s with unitOut := .word (g5 ++ g6) }

/-- R105 and R106: `G_INV`, byte by byte, with the key bytes in the order `j = 3, 2, 1, 0`. The word stands
on the unit's wires (log 2). -/
def Obligations.GInvAnswersTheReversedChain : Prop :=
  ∀ (k : BitVec 5) (w : Word) (s : State),
    let cv : Nat → Byte := fun j => s.keyr[(4 * ((k.toNat + 1) - 1) + j) % 10]'(Nat.mod_lt _ (by decide))
    let g5 : Byte := w.extractLsb' 8 8
    let g6 : Byte := w.extractLsb' 0 8
    let g4 : Byte := fLookup (g5 ^^^ cv 3) ^^^ g6
    let g3 : Byte := fLookup (g4 ^^^ cv 2) ^^^ g5
    let g2 : Byte := fLookup (g3 ^^^ cv 1) ^^^ g4
    let g1 : Byte := fLookup (g2 ^^^ cv 0) ^^^ g3
    exec (.gInv k w) s = .next { s with unitOut := .word (g1 ++ g2) }

/-- R103: `G` is what its own sub-operations chain to: each key byte from `CV`, each stage from `GS`. -/
def Obligations.GIsTheChainOfItsSubOperations : Prop :=
  ∀ (k : BitVec 5) (w : Word) (s : State), ∃ k0 k1 k2 k3 g3 g4 g5 g6 : Byte,
    exec (.cv k 0) s = .next { s with unitOut := .byte k0 }
      ∧ exec (.cv k 1) s = .next { s with unitOut := .byte k1 }
      ∧ exec (.cv k 2) s = .next { s with unitOut := .byte k2 }
      ∧ exec (.cv k 3) s = .next { s with unitOut := .byte k3 }
      ∧ exec (.gs (hiByte w) (loByte w) k0) s = .next { s with unitOut := .pair (loByte w) g3 }
      ∧ exec (.gs (loByte w) g3 k1) s = .next { s with unitOut := .pair g3 g4 }
      ∧ exec (.gs g3 g4 k2) s = .next { s with unitOut := .pair g4 g5 }
      ∧ exec (.gs g4 g5 k3) s = .next { s with unitOut := .pair g5 g6 }
      ∧ exec (.g k w) s = .next { s with unitOut := .word (joinBytes g5 g6) }

/-- R107: `G_INV` undoes `G` and `G` undoes `G_INV`, for every counter, word and key, so that for a fixed
counter and key `G` is a permutation of the words. -/
def Obligations.GAndGInvAreInverse : Prop :=
  (∀ (k : BitVec 5) (w : Word) (s : State),
    (∃ x, exec (.g k w) s = .next { s with unitOut := .word x }
      ∧ exec (.gInv k x) s = .next { s with unitOut := .word w })
    ∧ (∃ x, exec (.gInv k w) s = .next { s with unitOut := .word x }
      ∧ exec (.g k x) s = .next { s with unitOut := .word w }))
  ∧ ∀ (keyr : KeyRegs) (k : BitVec 5), Function.Bijective (gPerm keyr (roundOf k))

/-! ## Key schedule access (42_key_schedule) -/

/-- R115: the key byte, for every step number and stage, on the unit's wires (log 2), and its encoding. -/
def Obligations.CvAnswersTheScheduledKeyByte : Prop :=
  ∀ (k : BitVec 5) (j : BitVec 2) (s : State),
    let b : Byte := s.keyr[(4 * ((k.toNat + 1) - 1) + j.toNat) % 10]'(Nat.mod_lt _ (by decide))
    exec (.cv k j) s = .next { s with unitOut := .byte b }
      ∧ decode (.keySchedule (k ++ j)) = .cv k j

/-- R118 and R108: the key indices, and with them `G` and `G_INV`, repeat every five rounds; the five rows of
R118's table, one after the other. -/
def Obligations.KeyScheduleHasPeriodFive : Prop :=
  (∀ (k k' : BitVec 5) (j : BitVec 2) (w : Word) (s : State), k.toNat % 5 = k'.toNat % 5 →
    exec (.cv k j) s = exec (.cv k' j) s ∧ exec (.g k w) s = exec (.g k' w) s
      ∧ exec (.gInv k w) s = exec (.gInv k' w) s)
  ∧ ∀ (k : BitVec 5) (j : BitVec 2) (s : State),
    let indices : List (Fin 10) := [0, 1, 2, 3, 4, 5, 6, 7, 8, 9, 0, 1, 2, 3, 4, 5, 6, 7, 8, 9]
    exec (.cv k j) s =
      .next { s with unitOut := .byte s.keyr[indices.getD (4 * (k.toNat % 5) + j.toNat) 0] }

/-! ## The round rules (43_round_rules) -/

/-- R127: Rule A, for every round counter. -/
def Obligations.RuleAResult : Prop :=
  (∀ (k : BitVec 5) (s : State),
    let g := gPerm s.keyr (k.toNat + 1) s.w.w1
    exec (.ruleA k) s = .next { s with
      w := ⟨g ^^^ s.w.w4 ^^^ BitVec.ofNat 16 (k.toNat + 1), g, s.w.w2, s.w.w3⟩ })
  ∧ ∀ sw : BitVec 6, sw &&& 0b101000#6 = 0b000000#6 → decode (.schedule sw) = .ruleA (sw.extractLsb' 0 5)

/-- R129: Rule B, for every round counter. -/
def Obligations.RuleBResult : Prop :=
  (∀ (k : BitVec 5) (s : State),
    let g := gPerm s.keyr (k.toNat + 1) s.w.w1
    exec (.ruleB k) s = .next { s with
      w := ⟨s.w.w4, g, s.w.w1 ^^^ s.w.w2 ^^^ BitVec.ofNat 16 (k.toNat + 1), s.w.w3⟩ })
  ∧ ∀ sw : BitVec 6, sw &&& 0b101000#6 = 0b001000#6 → decode (.schedule sw) = .ruleB (sw.extractLsb' 0 5)

/-- R131: inverse Rule A, for every round counter. -/
def Obligations.RuleAInvResult : Prop :=
  (∀ (k : BitVec 5) (s : State),
    let h := gPermInv s.keyr (k.toNat + 1) s.w.w2
    exec (.ruleAInv k) s = .next { s with
      w := ⟨h, s.w.w3, s.w.w4, s.w.w1 ^^^ s.w.w2 ^^^ BitVec.ofNat 16 (k.toNat + 1)⟩ })
  ∧ ∀ sw : BitVec 6, sw &&& 0b101000#6 = 0b100000#6 → decode (.schedule sw) = .ruleAInv (sw.extractLsb' 0 5)

/-- R133: inverse Rule B, for every round counter. -/
def Obligations.RuleBInvResult : Prop :=
  (∀ (k : BitVec 5) (s : State),
    let h := gPermInv s.keyr (k.toNat + 1) s.w.w2
    exec (.ruleBInv k) s = .next { s with
      w := ⟨h, h ^^^ s.w.w3 ^^^ BitVec.ofNat 16 (k.toNat + 1), s.w.w4, s.w.w1⟩ })
  ∧ ∀ sw : BitVec 6, sw &&& 0b101000#6 = 0b101000#6 → decode (.schedule sw) = .ruleBInv (sw.extractLsb' 0 5)

/-- R137: the word in position 1 goes through `G` in a forward round and lands in position 2; the word in
position 2 goes through `G_INV` in an inverse round and lands in position 1. -/
def Obligations.RoundsFeedTheGUnit : Prop :=
  ∀ (k : BitVec 5) (s : State), ∃ x y a b ai bi,
    exec (.g k s.w.w1) s = .next { s with unitOut := .word x }
      ∧ exec (.gInv k s.w.w2) s = .next { s with unitOut := .word y }
      ∧ exec (.ruleA k) s = .next a ∧ a.w.w2 = x
      ∧ exec (.ruleB k) s = .next b ∧ b.w.w2 = x
      ∧ exec (.ruleAInv k) s = .next ai ∧ ai.w.w1 = y
      ∧ exec (.ruleBInv k) s = .next bi ∧ bi.w.w1 = y

/-- R132: `RULE_A_INV(r)` undoes `RULE_A(r)` and is undone by it, for every state, key and counter. -/
def Obligations.RuleAAndItsInverseUndoEachOther : Prop :=
  ∀ (k : BitVec 5) (s : State),
    (∃ t, exec (.ruleA k) s = .next t ∧ exec (.ruleAInv k) t = .next s)
      ∧ (∃ t, exec (.ruleAInv k) s = .next t ∧ exec (.ruleA k) t = .next s)

/-- R134: `RULE_B_INV(r)` undoes `RULE_B(r)` and is undone by it, for every state, key and counter. -/
def Obligations.RuleBAndItsInverseUndoEachOther : Prop :=
  ∀ (k : BitVec 5) (s : State),
    (∃ t, exec (.ruleB k) s = .next t ∧ exec (.ruleBInv k) t = .next s)
      ∧ (∃ t, exec (.ruleBInv k) s = .next t ∧ exec (.ruleB k) t = .next s)

/-! ## Frames -/

/-- The four round operations write the state words only (R125): the key space reads as before, every
control register and the model's own fields are as before. The engine has no data memory (R50). -/
def Obligations.RoundOperationsWriteOnlyTheWords : Prop :=
  ∀ (i : Instr) (k : BitVec 5) (s : State),
    i = .ruleA k ∨ i = .ruleB k ∨ i = .ruleAInv k ∨ i = .ruleBInv k →
    ∃ t, exec i s = .next t
      ∧ (∀ n, readKey t.keyr n = readKey s.keyr n) ∧ t.keyr = s.keyr
      ∧ t.ctr = s.ctr ∧ t.mode = s.mode ∧ t.phase = s.phase ∧ t.host = s.host ∧ t.unitOut = s.unitOut
      ∧ t.busy = s.busy ∧ t.done = s.done

/-- The six sub-operations write no register at all: state words, key space, counter, direction and phase
are as before, and so are the outputs. Only the model's output wires carry a value (log 2). -/
def Obligations.SubOperationsWriteNoRegister : Prop :=
  ∀ (i : Instr) (k : BitVec 5) (w : Word) (l r kb a : Byte) (j : BitVec 2) (s : State),
    i = .g k w ∨ i = .gInv k w ∨ i = .gs l r kb ∨ i = .gsi l r kb ∨ i = .cv k j ∨ i = .f a →
    ∃ t, exec i s = .next t ∧ t.unitOut ≠ .none
      ∧ t.w = s.w ∧ t.keyr = s.keyr ∧ (∀ n, readKey t.keyr n = readKey s.keyr n)
      ∧ t.ctr = s.ctr ∧ t.mode = s.mode ∧ t.phase = s.phase ∧ t.host = s.host
      ∧ t.busy = s.busy ∧ t.done = s.done ∧ t.blockOut = s.blockOut

/-! ## The host commands (44_driver, 70_reset_and_hazards) -/

/-- R200: `RESET`, as an operation and as the step of a state whose host drives `rst = 1`, whatever the
other ports and the phase. -/
def Obligations.ResetRestoresEveryRegister : Prop :=
  (∀ (start decrypt : Bool) (s : State), ∃ t, exec (.reset start decrypt) s = .next t
    ∧ t.phase = .idle ∧ t.mode = .encrypt ∧ t.ctr = 1 ∧ t.w = ⟨0, 0, 0, 0⟩
    ∧ (∀ (i : Nat) (h : i < 10), t.keyr[i] = 0) ∧ t.host = s.host ∧ t.unitOut = s.unitOut
    ∧ t.busy = false ∧ t.done = false ∧ t.blockOut = 0)
  ∧ (∀ (start decrypt : Bool) key block,
    decode (.command (1#1 ++ BitVec.ofBool start ++ BitVec.ofBool decrypt) key block) = .reset start decrypt)
  ∧ ∀ s : State, s.Legal → s.sample.rst = true → ∃ t, step s = .next t
    ∧ t.phase = .idle ∧ t.mode = .encrypt ∧ t.ctr = 1 ∧ t.w = ⟨0, 0, 0, 0⟩
    ∧ (∀ (i : Nat) (h : i < 10), t.keyr[i] = 0)
    ∧ t.busy = false ∧ t.done = false ∧ t.blockOut = 0

/-- R147: `NOP` writes no register, as an operation and as the step in IDLE or DONE without a start. -/
def Obligations.NopWritesNothing : Prop :=
  (∀ (decrypt : Bool) (s : State), exec (.nop decrypt) s = .next s)
  ∧ (∀ (decrypt : Bool) key block,
    decode (.command (0#2 ++ BitVec.ofBool decrypt) key block) = .nop decrypt)
  ∧ ∀ s : State, s.Legal → s.phase ≠ .busy → s.sample.rst = false → s.sample.start = false →
    ∃ t, step s = .next t ∧ t.w = s.w ∧ t.keyr = s.keyr ∧ t.ctr = s.ctr ∧ t.mode = s.mode
      ∧ t.phase = s.phase ∧ t.busy = s.busy ∧ t.done = s.done ∧ t.blockOut = s.blockOut

/-- R149: `START_ENC` in IDLE or DONE. -/
def Obligations.StartEncLoadsTheOperands : Prop :=
  ∀ (key : BitVec 80) (block : BitVec 64) (s : State), s.phase = .idle ∨ s.phase = .done →
    ∃ t, exec (.startEnc key block) s = .next t
      ∧ (∀ (i : Nat) (h : i < 10), t.keyr[i] = key.extractLsb' (72 - 8 * i) 8)
      ∧ t.w.w1 = block.extractLsb' 48 16 ∧ t.w.w2 = block.extractLsb' 32 16
      ∧ t.w.w3 = block.extractLsb' 16 16 ∧ t.w.w4 = block.extractLsb' 0 16
      ∧ t.mode = .encrypt ∧ t.ctr = 1 ∧ t.phase = .busy
      ∧ t.host = s.host ∧ t.unitOut = s.unitOut
      ∧ t.busy = true ∧ t.done = false ∧ t.blockOut = 0
      ∧ decode (.command 0b010#3 key block) = .startEnc key block

/-- R150: `START_DEC` in IDLE or DONE. -/
def Obligations.StartDecLoadsTheOperands : Prop :=
  ∀ (key : BitVec 80) (block : BitVec 64) (s : State), s.phase = .idle ∨ s.phase = .done →
    ∃ t, exec (.startDec key block) s = .next t
      ∧ (∀ (i : Nat) (h : i < 10), t.keyr[i] = key.extractLsb' (72 - 8 * i) 8)
      ∧ t.w.w1 = block.extractLsb' 48 16 ∧ t.w.w2 = block.extractLsb' 32 16
      ∧ t.w.w3 = block.extractLsb' 16 16 ∧ t.w.w4 = block.extractLsb' 0 16
      ∧ t.mode = .decrypt ∧ t.ctr = 32 ∧ t.phase = .busy
      ∧ t.host = s.host ∧ t.unitOut = s.unitOut
      ∧ t.busy = true ∧ t.done = false ∧ t.blockOut = 0
      ∧ decode (.command 0b011#3 key block) = .startDec key block

/-- R148: a step of a legal state starts an operation exactly when `rst = 0`, `start = 1` and the phase is
IDLE or DONE; a start presented in BUSY changes nothing, neither now nor later. -/
def Obligations.StartIsAcceptedInIdleOrDoneOnly : Prop :=
  (∀ s : State, s.Legal →
    ∃ t, step s = .next t ∧ ((s.phase ≠ .busy ∧ t.phase = .busy) ↔
      (s.sample.rst = false ∧ s.sample.start = true ∧ (s.phase = .idle ∨ s.phase = .done))))
  ∧ (∀ (s : State) (p : Ports) (rest : List Ports), s.Legal → s.phase = .busy → p.rst = false →
    p.start = true →
    step { s with host := p :: rest } = step { s with host := { p with start := false } :: rest })
  ∧ ∀ (key : BitVec 80) (block : BitVec 64) (s : State), s.phase = .busy →
    exec (.startEnc key block) s = .next s ∧ exec (.startDec key block) s = .next s

/-! ## The step (44_driver) -/

/-- The step performs what it fetched: when the fetch hands out an issue and `exec` answers `t` for the
operation it decodes to, the step answers `t` with the counter advance of a round and the end of the step
applied. That the end of the step uses up one port sample (log 1) and empties the unit's wires (log 2, R32) is
the model's choice. -/
def Obligations.StepRunsTheFetchedOperation : Prop :=
  ∀ (s t : State) (e : Issue), s.fetch = .ok e → exec (decode e) s = .next t →
    step s = .next (match e with
      | .schedule _ => { t.advanceCounter with host := t.host.tail, unitOut := .none }
      | _ => { t with host := t.host.tail, unitOut := .none })

/-- R73: which format a step decodes. -/
def Obligations.PhaseFixesTheFormat : Prop :=
  ∀ s : State, s.Legal → s.fetch = .ok
    (if s.sample.rst = true then .command s.sample.cmd s.sample.keyIn s.sample.blockIn
    else if s.phase = .busy then .schedule (s.mode.bit ++ BitVec.ofNat 5 (s.ctr.toNat - 1))
    else .command s.sample.cmd s.sample.keyIn s.sample.blockIn)

/-- R146: the priority of the branches of a step. Exactly one acts. That the step then uses up one port
sample (log 1) and empties the unit's wires (log 2), which is `endStep`, is the model's choice. -/
def Obligations.StepFollowsThePriority : Prop :=
  ∀ s : State, s.Legal →
    let p := s.sample
    let k : BitVec 5 := BitVec.ofNat 5 (s.ctr.toNat - 1)
    let i : Instr :=
      if p.rst = true then .reset p.start p.decrypt
      else if s.phase = .busy then
        match s.mode with
        | .encrypt => if UsesRuleA s.ctr.toNat then .ruleA k else .ruleB k
        | .decrypt => if UsesRuleA s.ctr.toNat then .ruleAInv k else .ruleBInv k
      else if p.start = true ∧ p.decrypt = false then .startEnc p.keyIn p.blockIn
      else if p.start = true ∧ p.decrypt = true then .startDec p.keyIn p.blockIn
      else .nop p.decrypt
    ∃ t, exec i s = .next t ∧ step s = .next
      (if p.rst = false ∧ s.phase = .busy then t.advanceCounter.endStep else t.endStep)

/-- R151: a round step of an encryption. The last two clauses, one port sample used up (log 1) and empty
wires (log 2), are the model's choice. -/
def Obligations.EncryptionRoundStep : Prop :=
  ∀ s : State, s.Legal → s.sample.rst = false → s.phase = .busy → s.mode = .encrypt →
    let r := s.ctr.toNat
    ∃ t, step s = .next t
      ∧ t.w = (if (1 ≤ r ∧ r ≤ 8) ∨ (17 ≤ r ∧ r ≤ 24) then ruleA s.keyr r s.w else ruleB s.keyr r s.w)
      ∧ (if r = 32 then t.phase = .done ∧ t.ctr.toNat = 32 else t.phase = .busy ∧ t.ctr.toNat = r + 1)
      ∧ t.keyr = s.keyr ∧ t.mode = .encrypt ∧ t.host = s.host.tail ∧ t.unitOut = .none

/-- R152: a round step of a decryption. The last two clauses, one port sample used up (log 1) and empty
wires (log 2), are the model's choice. -/
def Obligations.DecryptionRoundStep : Prop :=
  ∀ s : State, s.Legal → s.sample.rst = false → s.phase = .busy → s.mode = .decrypt →
    let r := s.ctr.toNat
    ∃ t, step s = .next t
      ∧ t.w = (if (1 ≤ r ∧ r ≤ 8) ∨ (17 ≤ r ∧ r ≤ 24) then ruleAInv s.keyr r s.w else ruleBInv s.keyr r s.w)
      ∧ (if r = 1 then t.phase = .done ∧ t.ctr.toNat = 1 else t.phase = .busy ∧ t.ctr.toNat = r - 1)
      ∧ t.keyr = s.keyr ∧ t.mode = .decrypt ∧ t.host = s.host.tail ∧ t.unitOut = .none

/-- R25: how a step moves the round counter. -/
def Obligations.CounterMovesAsStated : Prop :=
  ∀ s t : State, s.Legal → step s = .next t →
    if s.sample.rst = true then t.ctr = 1
    else if s.phase = .busy then
      if s.mode = .encrypt then
        if s.ctr.toNat < 32 then t.ctr.toNat = s.ctr.toNat + 1 ∧ t.phase = .busy
        else t.ctr = s.ctr ∧ t.phase = .done
      else
        if 1 < s.ctr.toNat then t.ctr.toNat + 1 = s.ctr.toNat ∧ t.phase = .busy
        else t.ctr = s.ctr ∧ t.phase = .done
    else if s.sample.start = true then
      if s.sample.decrypt = true then t.ctr = 32 else t.ctr = 1
    else t.ctr = s.ctr

/-- R28: the codes of the phase register, and its only transitions. -/
def Obligations.PhaseTransitionsAreTheStatedOnes : Prop :=
  (Phase.idle.code = 0#2 ∧ Phase.busy.code = 1#2 ∧ Phase.done.code = 2#2 ∧ Phase.reserved.code = 3#2)
  ∧ ∀ s t : State, s.Legal → step s = .next t →
    if s.sample.rst = true then t.phase = .idle
    else if s.phase = .busy then
      t.phase = (if s.ctr = s.mode.lastCounter then .done else .busy)
    else if s.sample.start = true then t.phase = .busy
    else t.phase = s.phase

/-- R120: the key registers are written by an accepted start and by `RESET` only, and no start is accepted
in BUSY, so that the key stays, throughout an operation, the one its start sampled. Where the list of
samples ends the host drives nothing, so no reset (log 1, the model's choice). -/
def Obligations.KeyIsWrittenByStartAndResetOnly : Prop :=
  (∀ s t : State, s.Legal → step s = .next t →
    (t.keyr ≠ s.keyr → s.sample.rst = true ∨ (s.phase ≠ .busy ∧ s.sample.start = true))
      ∧ (s.phase = .busy → s.sample.rst = false → t.keyr = s.keyr))
  ∧ ∀ (n : Nat) (s : State) (p : Ports) (rest : List Ports), s.Legal → s.phase ≠ .busy →
    s.host = p :: rest → p.rst = false → p.start = true → n ≤ 32 →
    (∀ q ∈ rest.take n, q.rst = false) →
    ∃ t, Sys2Proof.core.run (n + 1) s = .next t
      ∧ ∀ (i : Nat) (h : i < 10), t.keyr[i] = p.keyIn.extractLsb' (72 - 8 * i) 8

/-- R153: the last round completes the operation, and the result then stays on `block_out` for as long as
no step resets or starts. Where the list of samples ends the host drives nothing, so neither (log 1, the
model's choice). -/
def Obligations.ResultStaysUntilStartOrReset : Prop :=
  (∀ s : State, s.Legal → s.phase = .busy → s.sample.rst = false → s.ctr = s.mode.lastCounter →
    ∃ t, step s = .next t ∧ t.phase = .done ∧ t.done = true
      ∧ t.blockOut = t.w.w1 ++ t.w.w2 ++ t.w.w3 ++ t.w.w4 ∧ t.ctr = s.ctr ∧ t.mode = s.mode)
  ∧ ∀ (n : Nat) (s : State), s.Legal → s.phase = .done →
    (∀ q ∈ s.host.take n, q.rst = false ∧ q.start = false) →
    ∃ t, Sys2Proof.core.run n s = .next t ∧ t.w = s.w ∧ t.keyr = s.keyr ∧ t.ctr = s.ctr ∧ t.mode = s.mode
      ∧ t.phase = .done ∧ t.done = true ∧ t.blockOut = s.blockOut

/-- R154: in BUSY the next state depends on the ports through `rst` alone. -/
def Obligations.BusyStepReadsOnlyRst : Prop :=
  ∀ (s : State) (p q : Ports) (rest : List Ports), s.phase = .busy → p.rst = q.rst →
    step { s with host := p :: rest } = step { s with host := q :: rest }

/-- R32: what a unit's output wires carry before a step has no effect on it, and nothing is left on them
after it. The wires are the model's own (log 2). -/
def Obligations.NoUnitValueCrossesAStep : Prop :=
  ∀ (s : State) (v : UnitOut), step { s with unitOut := v } = step s
    ∧ ∀ t, step s = .next t → t.unitOut = .none

/-- R158: two engines given the same start are in the same state after every further number of steps when
the ports they see from then on are the same, and have the same result whatever those ports carry besides
`rst = 0`; what either did before does not matter. Where the list of samples ends the host drives nothing, so
no reset (log 1, the model's choice). -/
def Obligations.OperationForgetsWhatWentBefore : Prop :=
  (∀ s s' : State, s.Legal → s'.Legal → s.phase ≠ .busy → s'.phase ≠ .busy → s.host = s'.host →
    s.sample.rst = false → s.sample.start = true →
    ∀ n : Nat, Sys2Proof.core.run (n + 1) s = Sys2Proof.core.run (n + 1) s')
  ∧ ∀ (s s' : State) (p : Ports) (rest rest' : List Ports), s.Legal → s'.Legal →
    s.phase ≠ .busy → s'.phase ≠ .busy → s.host = p :: rest → s'.host = p :: rest' →
    p.rst = false → p.start = true →
    (∀ q ∈ rest.take 32, q.rst = false) → (∀ q ∈ rest'.take 32, q.rst = false) →
    ∃ t t', Sys2Proof.core.run 33 s = .next t ∧ Sys2Proof.core.run 33 s' = .next t'
      ∧ t.done = true ∧ t'.done = true ∧ t.blockOut = t'.blockOut

/-- R34: the states the spec gives no meaning are refused, and no step leads to the reserved phase. That
this holds with `rst = 1` too, and which name comes first, is the model's reading (log 4). -/
def Obligations.IllegalStatesAreRefused : Prop :=
  (∀ s : State, s.phase = .reserved → step s = .refused .reservedPhase)
  ∧ (∀ s : State, s.phase ≠ .reserved → s.ctr.toNat = 0 ∨ 32 < s.ctr.toNat →
    step s = .refused .counterOutOfRange)
  ∧ ∀ s t : State, step s = .next t → t.phase ≠ .reserved

/-- R145: the step is total on the legal states, and leads to a legal state: it never blocks, faults or is
refused. -/
def Obligations.LegalStatesStepToLegalStates : Prop :=
  ∀ s : State, s.Legal → ∃ t, step s = .next t ∧ t.Legal

/-- The invariant holds at reset. -/
def Obligations.ResetStateMeetsTheInvariant : Prop :=
  State.reset.Inv

/-- Every step keeps the invariant: the phase is legal and the counter in 1..32 (R26, R34), in IDLE every
register has its reset value, in DONE the counter is the last one used (R153), no unit value outlives its
step (R32). -/
def Obligations.EveryStepKeepsTheInvariant : Prop :=
  ∀ s t : State, s.Inv → step s = .next t → t.Inv

/-! ## Whole operations (44_driver R155 to R160, 70_reset_and_hazards) -/

/-- R155: an accepted `START_ENC` and 32 further steps without reset leave `ENCRYPT_BLOCK` of the key and
the block on `block_out`, whatever else the ports carry meanwhile. That 33 samples are used up, and that the
host drives nothing, so no reset, where the list ends, is log 1, the model's choice. -/
def Obligations.EngineComputesEncryptBlock : Prop :=
  ∀ (s : State) (p : Ports) (rest : List Ports) (k : KeyRegs) (b : Vector Byte 8),
    s.Legal → s.phase = .idle ∨ s.phase = .done → s.host = p :: rest →
    p.rst = false → p.start = true → p.decrypt = false →
    p.keyIn = keyPortOfBytes k → p.blockIn = blockPortOfBytes b →
    (∀ q ∈ rest.take 32, q.rst = false) →
    ∃ t, Sys2Proof.core.run 33 s = .next t ∧ t.phase = .done ∧ t.done = true ∧ t.busy = false
      ∧ t.blockOut = blockPortOfBytes (encryptBlock k b) ∧ t.keyr = k ∧ t.host = rest.drop 32

/-- R156: the same for `START_DEC` and `DECRYPT_BLOCK`. The samples used up, and those past the end of the
list, are log 1, the model's choice. -/
def Obligations.EngineComputesDecryptBlock : Prop :=
  ∀ (s : State) (p : Ports) (rest : List Ports) (k : KeyRegs) (b : Vector Byte 8),
    s.Legal → s.phase = .idle ∨ s.phase = .done → s.host = p :: rest →
    p.rst = false → p.start = true → p.decrypt = true →
    p.keyIn = keyPortOfBytes k → p.blockIn = blockPortOfBytes b →
    (∀ q ∈ rest.take 32, q.rst = false) →
    ∃ t, Sys2Proof.core.run 33 s = .next t ∧ t.phase = .done ∧ t.done = true ∧ t.busy = false
      ∧ t.blockOut = blockPortOfBytes (decryptBlock k b) ∧ t.keyr = k ∧ t.host = rest.drop 32

/-- R157: decryption undoes encryption and encryption undoes decryption, for every block and every key, so
that for a fixed key each is a permutation of the blocks. -/
def Obligations.DecryptionUndoesEncryption : Prop :=
  ∀ k : KeyRegs,
    (∀ b : Vector Byte 8, decryptBlock k (encryptBlock k b) = b ∧ encryptBlock k (decryptBlock k b) = b)
      ∧ Function.Bijective (encryptBlock k) ∧ Function.Bijective (decryptBlock k)

/-- R160: after an accepted start, for either direction, every key and every block, `busy` for 32 steps and
`done` after the 32nd round step. Where the list of samples ends the host drives nothing, so no reset (log 1,
the model's choice). -/
def Obligations.OperationTakesThirtyTwoRoundSteps : Prop :=
  ∀ (s : State) (p : Ports) (rest : List Ports),
    s.Legal → s.phase = .idle ∨ s.phase = .done → s.host = p :: rest →
    p.rst = false → p.start = true → (∀ q ∈ rest.take 32, q.rst = false) →
    (∀ n : Nat, n < 32 → ∃ t, Sys2Proof.core.run (n + 1) s = .next t
      ∧ t.busy = true ∧ t.done = false ∧ t.blockOut = 0)
    ∧ ∃ t, Sys2Proof.core.run 33 s = .next t ∧ t.busy = false ∧ t.done = true

/-- R219: without reset the engine is not busy within 32 steps, and stays so until a start. Where the list of
samples ends the host drives nothing, so no reset (log 1, the model's choice). -/
def Obligations.EngineIsNotBusyWithinThirtyTwoSteps : Prop :=
  (∀ s : State, s.Legal → (∀ q ∈ s.host.take 32, q.rst = false) →
    ∃ n, n ≤ 32 ∧ ∃ t, Sys2Proof.core.run n s = .next t ∧ t.busy = false)
  ∧ ∀ s : State, s.Legal → s.busy = false → s.sample.rst = false → s.sample.start = false →
    ∃ t, step s = .next t ∧ t.busy = false

/-- R83: the programs `encrypt_block(key, block)` and `decrypt_block(key, block)`, expanded in a state that
is not busy, are the start and 32 `NOP` lines; driven there they let the host `READ` the result, and one `NOP`
fewer and there is nothing to read (R212). That a step uses up one sample is log 1, the model's choice. -/
def Obligations.HostProgramsReadTheResult : Prop :=
  ∀ (s : State) (k : KeyRegs) (b : Vector Byte 8) (rest : List Ports),
    s.Legal → s.phase = .idle ∨ s.phase = .done →
    let key := keyPortOfBytes k
    let block := blockPortOfBytes b
    (∃ lines, s.programEncrypt key block = some lines ∧ lines = lineStartEnc key block :: linesNop 32
      ∧ (∃ t, Sys2Proof.core.run 33 { s with host := lines ++ rest } = .next t
        ∧ t.read = some (blockPortOfBytes (encryptBlock k b)) ∧ t.host = rest)
      ∧ ∃ t, Sys2Proof.core.run 32 { s with host := lines ++ rest } = .next t ∧ t.read = none)
    ∧ ∃ lines, s.programDecrypt key block = some lines ∧ lines = lineStartDec key block :: linesNop 32
      ∧ (∃ t, Sys2Proof.core.run 33 { s with host := lines ++ rest } = .next t
        ∧ t.read = some (blockPortOfBytes (decryptBlock k b)) ∧ t.host = rest)
      ∧ ∃ t, Sys2Proof.core.run 32 { s with host := lines ++ rest } = .next t ∧ t.read = none

/-- A command or round operation that the model is brought to perform next (log 13, the model's choice) is
what the next step fetches. -/
def Obligations.PresentedOperationIsFetchedNext : Prop :=
  ∀ (s : State) (i : Instr), i.wellFormed = true → (i.row.unit = .command ∨ i.row.unit = .schedule) →
    ∃ e, (s.present i).fetch = .ok e ∧ decode e = i

/-- R83: `WAIT_DONE` is one `NOP` in DONE, in BUSY one for each round still to go, and in IDLE, where no
number of `NOP` lines leads to `done = 1`, it has no expansion (log 17); driven where it was expanded, its
last line is the first after which `done = 1`. That a step uses up one sample is log 1, the model's choice. -/
def Obligations.WaitDoneIsNopUntilDone : Prop :=
  ∀ (s : State) (rest : List Ports), s.Legal →
    (s.phase = .done → s.waitDone = some (linesNop 1))
    ∧ (s.phase = .busy → s.mode = .encrypt → s.waitDone = some (linesNop (33 - s.ctr.toNat)))
    ∧ (s.phase = .busy → s.mode = .decrypt → s.waitDone = some (linesNop s.ctr.toNat))
    ∧ (s.phase = .idle → s.waitDone = none
      ∧ ∀ n, ∃ t, Sys2Proof.core.run n { s with host := linesNop n ++ rest } = .next t ∧ t.done = false)
    ∧ ∀ lines, s.waitDone = some lines → ∃ n, 1 ≤ n ∧ lines = linesNop n
      ∧ (∃ t, Sys2Proof.core.run n { s with host := lines ++ rest } = .next t ∧ t.done = true ∧ t.host = rest)
      ∧ ∀ m, 1 ≤ m → m < n →
        ∃ t, Sys2Proof.core.run m { s with host := lines ++ rest } = .next t ∧ t.done = false
end

