-- ==== Sys2Proof/Laws/State.lean ====
section
/-! SUPPORT. What each named operation over the registers does to each field of the state, so that no proof
unfolds a record update. -/

namespace Sys2Proof.Machine

variable (s : State)

/-! ### `writeWords` -/

@[simp] theorem State.writeWords_w (x : Words) : (s.writeWords x).w = x := rfl
@[simp] theorem State.writeWords_keyr (x : Words) : (s.writeWords x).keyr = s.keyr := rfl
@[simp] theorem State.writeWords_ctr (x : Words) : (s.writeWords x).ctr = s.ctr := rfl
@[simp] theorem State.writeWords_mode (x : Words) : (s.writeWords x).mode = s.mode := rfl
@[simp] theorem State.writeWords_phase (x : Words) : (s.writeWords x).phase = s.phase := rfl
@[simp] theorem State.writeWords_host (x : Words) : (s.writeWords x).host = s.host := rfl
@[simp] theorem State.writeWords_unitOut (x : Words) : (s.writeWords x).unitOut = s.unitOut := rfl

/-! ### `loadOperands` -/

@[simp] theorem State.loadOperands_w (key : BitVec 80) (block : BitVec 64) : (s.loadOperands key block).w = Words.ofPort block := rfl
@[simp] theorem State.loadOperands_keyr (key : BitVec 80) (block : BitVec 64) : (s.loadOperands key block).keyr = keyOfPort key := rfl
@[simp] theorem State.loadOperands_ctr (key : BitVec 80) (block : BitVec 64) : (s.loadOperands key block).ctr = s.ctr := rfl
@[simp] theorem State.loadOperands_mode (key : BitVec 80) (block : BitVec 64) : (s.loadOperands key block).mode = s.mode := rfl
@[simp] theorem State.loadOperands_phase (key : BitVec 80) (block : BitVec 64) : (s.loadOperands key block).phase = s.phase := rfl
@[simp] theorem State.loadOperands_host (key : BitVec 80) (block : BitVec 64) : (s.loadOperands key block).host = s.host := rfl
@[simp] theorem State.loadOperands_unitOut (key : BitVec 80) (block : BitVec 64) : (s.loadOperands key block).unitOut = s.unitOut := rfl

/-! ### `setControl` -/

@[simp] theorem State.setControl_w (m : Mode) (c : BitVec 6) (p : Phase) : (s.setControl m c p).w = s.w := rfl
@[simp] theorem State.setControl_keyr (m : Mode) (c : BitVec 6) (p : Phase) : (s.setControl m c p).keyr = s.keyr := rfl
@[simp] theorem State.setControl_ctr (m : Mode) (c : BitVec 6) (p : Phase) : (s.setControl m c p).ctr = c := rfl
@[simp] theorem State.setControl_mode (m : Mode) (c : BitVec 6) (p : Phase) : (s.setControl m c p).mode = m := rfl
@[simp] theorem State.setControl_phase (m : Mode) (c : BitVec 6) (p : Phase) : (s.setControl m c p).phase = p := rfl
@[simp] theorem State.setControl_host (m : Mode) (c : BitVec 6) (p : Phase) : (s.setControl m c p).host = s.host := rfl
@[simp] theorem State.setControl_unitOut (m : Mode) (c : BitVec 6) (p : Phase) : (s.setControl m c p).unitOut = s.unitOut := rfl

/-! ### `resetRegisters` -/

@[simp] theorem State.resetRegisters_w : (s.resetRegisters).w = State.reset.w := rfl
@[simp] theorem State.resetRegisters_keyr : (s.resetRegisters).keyr = State.reset.keyr := rfl
@[simp] theorem State.resetRegisters_ctr : (s.resetRegisters).ctr = State.reset.ctr := rfl
@[simp] theorem State.resetRegisters_mode : (s.resetRegisters).mode = State.reset.mode := rfl
@[simp] theorem State.resetRegisters_phase : (s.resetRegisters).phase = State.reset.phase := rfl
@[simp] theorem State.resetRegisters_host : (s.resetRegisters).host = s.host := rfl
@[simp] theorem State.resetRegisters_unitOut : (s.resetRegisters).unitOut = s.unitOut := rfl

/-! ### `emit` -/

@[simp] theorem State.emit_w (v : UnitOut) : (s.emit v).w = s.w := rfl
@[simp] theorem State.emit_keyr (v : UnitOut) : (s.emit v).keyr = s.keyr := rfl
@[simp] theorem State.emit_ctr (v : UnitOut) : (s.emit v).ctr = s.ctr := rfl
@[simp] theorem State.emit_mode (v : UnitOut) : (s.emit v).mode = s.mode := rfl
@[simp] theorem State.emit_phase (v : UnitOut) : (s.emit v).phase = s.phase := rfl
@[simp] theorem State.emit_host (v : UnitOut) : (s.emit v).host = s.host := rfl
@[simp] theorem State.emit_unitOut (v : UnitOut) : (s.emit v).unitOut = v := rfl

/-! ### `endStep` -/

@[simp] theorem State.endStep_w : (s.endStep).w = s.w := rfl
@[simp] theorem State.endStep_keyr : (s.endStep).keyr = s.keyr := rfl
@[simp] theorem State.endStep_ctr : (s.endStep).ctr = s.ctr := rfl
@[simp] theorem State.endStep_mode : (s.endStep).mode = s.mode := rfl
@[simp] theorem State.endStep_phase : (s.endStep).phase = s.phase := rfl
@[simp] theorem State.endStep_host : (s.endStep).host = s.host.tail := rfl
@[simp] theorem State.endStep_unitOut : (s.endStep).unitOut = .none := rfl

/-! ### `drive` -/

@[simp] theorem State.drive_w (p : Ports) : (s.drive p).w = s.w := rfl
@[simp] theorem State.drive_keyr (p : Ports) : (s.drive p).keyr = s.keyr := rfl
@[simp] theorem State.drive_ctr (p : Ports) : (s.drive p).ctr = s.ctr := rfl
@[simp] theorem State.drive_mode (p : Ports) : (s.drive p).mode = s.mode := rfl
@[simp] theorem State.drive_phase (p : Ports) : (s.drive p).phase = s.phase := rfl
@[simp] theorem State.drive_host (p : Ports) : (s.drive p).host = p :: s.host := rfl
@[simp] theorem State.drive_unitOut (p : Ports) : (s.drive p).unitOut = s.unitOut := rfl

/-! ### `advanceCounter`: it moves `ctr` and `phase` only -/

@[simp] theorem State.advanceCounter_w : s.advanceCounter.w = s.w := by
  unfold State.advanceCounter; split <;> split <;> rfl
@[simp] theorem State.advanceCounter_keyr : s.advanceCounter.keyr = s.keyr := by
  unfold State.advanceCounter; split <;> split <;> rfl
@[simp] theorem State.advanceCounter_mode : s.advanceCounter.mode = s.mode := by
  unfold State.advanceCounter; split <;> split <;> rfl
@[simp] theorem State.advanceCounter_host : s.advanceCounter.host = s.host := by
  unfold State.advanceCounter; split <;> split <;> rfl
@[simp] theorem State.advanceCounter_unitOut : s.advanceCounter.unitOut = s.unitOut := by
  unfold State.advanceCounter; split <;> split <;> rfl

/-! ### The ports and the outputs -/

@[simp] theorem State.sample_drive (p : Ports) : (s.drive p).sample = p := rfl

@[simp] theorem State.endStep_busy : s.endStep.busy = s.busy := rfl

@[simp] theorem State.endStep_done : s.endStep.done = s.done := rfl

@[simp] theorem State.endStep_blockOut : s.endStep.blockOut = s.blockOut := rfl

/-- What the host will drive, when it has planned something. -/
theorem State.sample_of_host {s : State} {p : Ports} {rest : List Ports} (h : s.host = p :: rest) :
    s.sample = p := by
  simp [State.sample, h]

end Sys2Proof.Machine
end

