-- ==== Sys2Proof/Laws/Operations.lean ====
section
/-! SUPPORT. What each shared operation can do, said once: the key space, the stages of `G`, the counter
advance, the start of an operation, and what no operation touches. -/

namespace Sys2Proof.Machine

/-! ## The key space -/

/-- The key space has period 10 (R52). -/
theorem readKey_congr (keyr : KeyRegs) {m n : Nat} (h : m % 10 = n % 10) : readKey keyr m = readKey keyr n := by
  simp [readKey, h]

/-- Key schedule access at step number `k`, stage `j`: index `4k + j` (R78, R115). -/
theorem keyByte_roundOf (keyr : KeyRegs) (k : BitVec 5) (j : Nat) :
    keyByte keyr (roundOf k) j = readKey keyr (4 * k.toNat + j) := by
  simp [keyByte, roundOf]

/-! ## Bytes of words -/

/-- The bits of two joined bytes (R58). -/
theorem getLsbD_joinBytes (a b : Byte) (i : Nat) :
    (joinBytes a b).getLsbD i = if i < 8 then b.getLsbD i else a.getLsbD (i - 8) := by
  show (a ++ b).getLsbD i = _
  rw [BitVec.getLsbD_append]

@[simp] theorem hiByte_joinBytes (a b : Byte) : hiByte (joinBytes a b) = a := by
  apply BitVec.eq_of_getLsbD_eq
  intro i hi
  simp [hiByte, getLsbD_joinBytes, hi]

@[simp] theorem loByte_joinBytes (a b : Byte) : loByte (joinBytes a b) = b := by
  apply BitVec.eq_of_getLsbD_eq
  intro i hi
  simp [loByte, getLsbD_joinBytes, hi]

@[simp] theorem joinBytes_hiByte_loByte (w : Word) : joinBytes (hiByte w) (loByte w) = w := by
  apply BitVec.eq_of_getLsbD_eq
  intro i hi
  rw [getLsbD_joinBytes]
  split
  · simp [loByte, *]
  · simp [hiByte, show i - 8 < 8 by omega, show 8 + (i - 8) = i by omega]

/-! ## The counter advance and the start -/

/-- Everything the counter advance can do in a state whose counter is in range (R151, R152). -/
theorem State.advanceCounter_cases (s : State) :
    (s.mode = .encrypt ∧ s.ctr = 32 ∧ s.advanceCounter = { s with phase := .done })
      ∨ (s.mode = .encrypt ∧ s.ctr ≠ 32 ∧ s.advanceCounter = { s with ctr := s.ctr + 1 })
      ∨ (s.mode = .decrypt ∧ s.ctr = 1 ∧ s.advanceCounter = { s with phase := .done })
      ∨ (s.mode = .decrypt ∧ s.ctr ≠ 1 ∧ s.advanceCounter = { s with ctr := s.ctr - 1 }) := by
  unfold State.advanceCounter
  cases s.mode <;> by_cases h32 : s.ctr = 32 <;> by_cases h1 : s.ctr = 1 <;> simp_all

/-- A start in a phase that accepts one (R148). -/
theorem State.startWith_of_accepts {s : State} (h : s.phase.acceptsStart = true) (key : BitVec 80)
    (block : BitVec 64) (m : Mode) (c : BitVec 6) :
    s.startWith key block m c = (s.loadOperands key block).setControl m c .busy := by
  simp [State.startWith, h]

/-- A start in any other phase (R148). -/
theorem State.startWith_of_not_accepts {s : State} (h : s.phase.acceptsStart = false) (key : BitVec 80)
    (block : BitVec 64) (m : Mode) (c : BitVec 6) : s.startWith key block m c = s := by
  simp [State.startWith, h]

@[simp] theorem State.startWith_host (s : State) (key : BitVec 80) (block : BitVec 64) (m : Mode)
    (c : BitVec 6) : (s.startWith key block m c).host = s.host := by
  unfold State.startWith; split <;> rfl

@[simp] theorem State.startWith_unitOut (s : State) (key : BitVec 80) (block : BitVec 64) (m : Mode)
    (c : BitVec 6) : (s.startWith key block m c).unitOut = s.unitOut := by
  unfold State.startWith; split <;> rfl

/-! ## All operations at once -/

/-- No operation raises a fault or is refused, and none touches what the host has planned (R159, R175). -/
theorem exec_answers (i : Instr) (s : State) : ∃ t, exec i s = .next t ∧ t.host = s.host := by
  cases i <;> exact ⟨_, rfl, by simp⟩

end Sys2Proof.Machine
end

