-- ==== Sys2Proof/Laws/Step.lean ====
section
/-! SUPPORT. What a step can do, said once: which operation it fetches, and how its next state comes from
that operation's. -/

namespace Sys2Proof.Machine

/-- The counter test of the fetch is the bound of R26. -/
theorem State.counterInRange_iff (s : State) :
    s.counterInRange = true ↔ 1 ≤ s.ctr.toNat ∧ s.ctr.toNat ≤ 32 := by
  simp [State.counterInRange]

/-- The counter advance ends the operation in its last round and in no other (R151, R152). -/
theorem State.advanceCounter_phase (s : State) :
    s.advanceCounter.phase = if s.ctr = s.mode.lastCounter then .done else s.phase := by
  unfold State.advanceCounter Mode.lastCounter
  cases s.mode <;> dsimp only <;> split <;> rfl

/-- The counter advance moves the counter in every round but the last (R151, R152). -/
theorem State.advanceCounter_ctr (s : State) :
    s.advanceCounter.ctr = if s.ctr = s.mode.lastCounter then s.ctr else
      match s.mode with
      | .encrypt => s.ctr + 1
      | .decrypt => s.ctr - 1 := by
  unfold State.advanceCounter Mode.lastCounter
  cases s.mode <;> dsimp only <;> split <;> rfl

/-- A fetch succeeds in a legal state only, and hands out the schedule word exactly when a round is in
progress and the host does not reset (R34, R73). -/
theorem State.fetch_ok_cases {s : State} {e : Issue} (h : s.fetch = .ok e) :
    s.Legal ∧ ((s.sample.rst = false ∧ s.phase = .busy ∧ e = .schedule s.scheduleWord)
      ∨ ((s.sample.rst = true ∨ s.phase ≠ .busy)
        ∧ e = .command s.sample.cmd s.sample.keyIn s.sample.blockIn)) := by
  unfold State.fetch at h
  split at h
  · cases h
  · split at h
    · cases h
    · rename_i hp hc
      have hl : s.Legal := ⟨hp, s.counterInRange_iff.mp (by simpa using hc)⟩
      split at h
      · rename_i hb
        cases h
        exact ⟨hl, .inl ⟨hb.1, hb.2, rfl⟩⟩
      · rename_i hb
        cases h
        refine ⟨hl, .inr ⟨?_, rfl⟩⟩
        by_cases hr : s.sample.rst = true
        · exact .inl hr
        · exact .inr fun hbusy => hb ⟨by simpa using hr, hbusy⟩

/-- A step answers a next state only by performing what it fetched (R14, R146). -/
theorem step_next_cases {s t : State} (h : step s = .next t) :
    ∃ e u, s.fetch = .ok e ∧ exec (decode e) s = .next u ∧ t = u.retire e := by
  unfold step at h
  split at h
  · cases h
  · rename_i e he
    obtain ⟨u, hu, -⟩ := exec_answers (decode e) s
    rw [hu] at h
    exact ⟨e, u, he, hu, by cases h; rfl⟩

/-- A step that answers has used one port sample and left nothing on a wire (R32). -/
theorem step_next_host {s t : State} (h : step s = .next t) : t.host = s.host.tail ∧ t.unitOut = .none := by
  obtain ⟨e, u, -, hu, rfl⟩ := step_next_cases h
  obtain ⟨u', hu', hh⟩ := exec_answers (decode e) s
  rw [hu] at hu'
  cases hu'
  cases e <;> simp [State.retire, hh]

/-! ## Runs -/

/-- No step, no change. -/
theorem core_run_zero (s : State) : Sys2Proof.core.run 0 s = .next s := rfl

/-- A run goes on from the next state of its first step. -/
theorem core_run_succ {s t : State} (h : step s = .next t) (n : Nat) :
    Sys2Proof.core.run (n + 1) s = Sys2Proof.core.run n t := by
  have h' : Sys2Proof.core.step s = .next t := h
  simp only [Host.Core.run, h']

end Sys2Proof.Machine
end

