-- ==== Sys2Proof/Laws/HostProgram.lean ====
section
/-! SUPPORT. `WAIT_DONE`, one `NOP` at a time: what the wait stands for after one more step. -/

namespace Sys2Proof.Machine

/-- No line, no wait. -/
theorem State.waitDoneWithin_zero (s : State) : State.waitDoneWithin 0 s = none := rfl

/-- The wait goes on from the state its first `NOP` leads to, unless `done = 1` there (R83). -/
theorem State.waitDoneWithin_succ {s t : State} (h : step (s.drive Ports.idle) = .next t) (n : Nat) :
    State.waitDoneWithin (n + 1) s
      = if t.done then some [Ports.idle] else (State.waitDoneWithin n t).map (Ports.idle :: ·) := by
  simp only [State.waitDoneWithin, h]

/-- A wait is of `NOP` lines only: at least one, at most as many as were allowed. -/
theorem State.waitDoneWithin_lines {n : Nat} {s : State} {lines : List Ports}
    (h : State.waitDoneWithin n s = some lines) : ∃ m, m < n ∧ lines = linesNop (m + 1) := by
  induction n generalizing s lines with
  | zero => cases h
  | succ n ih =>
    unfold State.waitDoneWithin at h
    split at h
    · rename_i t _
      split at h
      · cases h
        exact ⟨0, by omega, rfl⟩
      · obtain ⟨rest, hrest, rfl⟩ := Option.map_eq_some_iff.mp h
        obtain ⟨m, hm, rfl⟩ := ih hrest
        exact ⟨m + 1, by omega, rfl⟩
    · cases h
    · cases h

/-- A start and its wait: the start, then the wait of the state it leads to (R83). -/
theorem State.startAndWait_of_step {s t : State} {start : Ports} (h : step (s.drive start) = .next t) :
    s.startAndWait start = t.waitDone.map (start :: ·) := by
  simp only [State.startAndWait, h]

end Sys2Proof.Machine
end

