-- ==== Sys2Proof/Laws/PerInstr.lean ====
section
/-! SUPPORT. Per operation: the word its encoding holds selects its row of the opcode table
(30_encoding R84), at the unit the row names. -/

namespace Sys2Proof.Laws.SelectsRow

/-- The encoding of a well-formed operation goes to its row's unit, and its format word selects the row. -/
def Statement (i : Instr) : Prop :=
  i.wellFormed = true → (encode i).unit = i.row.unit ∧ i.row.selects (encode i).word = true

theorem reset (start decrypt : Bool) : Statement (.reset start decrypt) := by
  intro _; cases start <;> cases decrypt <;> decide

theorem nop (decrypt : Bool) : Statement (.nop decrypt) := by
  intro _; cases decrypt <;> decide

theorem startEnc (key : BitVec 80) (block : BitVec 64) : Statement (.startEnc key block) :=
  fun _ => ⟨rfl, by simp [Instr.row, OpcodeRow.selects, encode, Issue.word, FunctionalUnit.width]⟩

theorem startDec (key : BitVec 80) (block : BitVec 64) : Statement (.startDec key block) :=
  fun _ => ⟨rfl, by simp [Instr.row, OpcodeRow.selects, encode, Issue.word, FunctionalUnit.width]⟩

theorem ruleA (k : BitVec 5) : Statement (.ruleA k) := by
  revert k; unfold Statement; decide

theorem ruleB (k : BitVec 5) : Statement (.ruleB k) := by
  revert k; unfold Statement; decide

theorem ruleAInv (k : BitVec 5) : Statement (.ruleAInv k) := by
  revert k; unfold Statement; decide

theorem ruleBInv (k : BitVec 5) : Statement (.ruleBInv k) := by
  revert k; unfold Statement; decide

theorem g (k : BitVec 5) (w : Word) : Statement (.g k w) :=
  fun _ => ⟨rfl, by simp [Instr.row, OpcodeRow.selects, encode, Issue.word, FunctionalUnit.width]⟩

theorem gInv (k : BitVec 5) (w : Word) : Statement (.gInv k w) :=
  fun _ => ⟨rfl, by simp [Instr.row, OpcodeRow.selects, encode, Issue.word, FunctionalUnit.width]⟩

theorem gs (l r kb : Byte) : Statement (.gs l r kb) :=
  fun _ => ⟨rfl, by simp [Instr.row, OpcodeRow.selects, encode, Issue.word, FunctionalUnit.width]⟩

theorem gsi (l r kb : Byte) : Statement (.gsi l r kb) :=
  fun _ => ⟨rfl, by simp [Instr.row, OpcodeRow.selects, encode, Issue.word, FunctionalUnit.width]⟩

theorem cv (k : BitVec 5) (j : BitVec 2) : Statement (.cv k j) := by
  intro _
  have h : (k ++ j).toNat < 2 ^ 7 := (k ++ j).isLt
  exact ⟨rfl, by simp [Instr.row, OpcodeRow.selects, encode, Issue.word, FunctionalUnit.width]; exact decide_eq_true h⟩

theorem f (a : Byte) : Statement (.f a) := by
  intro _
  have h : a.toNat < 2 ^ 8 := a.isLt
  exact ⟨rfl, by simp [Instr.row, OpcodeRow.selects, encode, Issue.word, FunctionalUnit.width]; exact decide_eq_true h⟩

end Sys2Proof.Laws.SelectsRow
end

