-- ==== Sys2Proof/Tests/Slice0.lean ====
section
/-! SUPPORT. Tests of the model, each expected value from spec/95_test_vectors.md or from the worked example
of the rule named; then, for every statement with hypotheses, a state and operands that meet them. -/

namespace Sys2Proof.Tests

open Sys2Proof Sys2Proof.Machine

/-! ## States and observations the tests share -/

/-- The key of the known-answer test (95 section 1.1). -/
def keyPortA : BitVec 80 := 0x00998877665544332211

/-- A state holding key A, the host's next sample and nothing on a wire. -/
def st (p : Phase) (m : Mode) (c : BitVec 6) (w : Words) (host : List Ports) : State :=
  ⟨w, keyOfPort keyPortA, c, m, p, host, .none⟩

/-- An encryption before round `c`. -/
def busyAt (m : Mode) (c : BitVec 6) (w : Words) : State := st .busy m c w []

/-- The registers `PHASE`, `MODE`, `CTR`, `W` of a next state. -/
def registersOf : Host.Outcome State Fault Refusal → Option (Phase × Mode × BitVec 6 × Words)
  | .next t => some (t.phase, t.mode, t.ctr, t.w)
  | .fault _ => none
  | .refused _ => none

/-- The words of a next state. -/
def wordsOf : Host.Outcome State Fault Refusal → Option Words
  | .next t => some t.w
  | .fault _ => none
  | .refused _ => none

/-- What a unit's wires carry in a next state. -/
def wiresOf : Host.Outcome State Fault Refusal → Option UnitOut
  | .next t => some t.unitOut
  | .fault _ => none
  | .refused _ => none

/-! ## WellFormed refuses what no word encodes -/

theorem test_ruleA_outside_its_groups_is_ill_formed : (Instr.ruleA 8).wellFormed = false := by decide
theorem test_ruleB_outside_its_groups_is_ill_formed : (Instr.ruleB 7).wellFormed = false := by decide
theorem test_ruleAInv_outside_its_groups_is_ill_formed : (Instr.ruleAInv 31).wellFormed = false := by decide
theorem test_ruleBInv_outside_its_groups_is_ill_formed : (Instr.ruleBInv 16).wellFormed = false := by decide

/-! ## Decoding, words of 95 section 5.2 and 30_encoding R71, R76, R77, R79 -/

theorem test_decode_reset : decode (.command 0b110#3 7 7) = .reset true false := by decide
theorem test_decode_nop : decode (.command 0b001#3 7 7) = .nop true := by decide
theorem test_decode_startEnc : decode (.command 0b010#3 7 9) = .startEnc 7 9 := by decide
theorem test_decode_startDec : decode (.command 0b011#3 7 9) = .startDec 7 9 := by decide
theorem test_decode_ruleA : decode (.schedule 0b010111#6) = .ruleA 0b10111#5 := by decide
theorem test_decode_ruleB : decode (.schedule 0b001000#6) = .ruleB 0b01000#5 := by decide
theorem test_decode_ruleAInv : decode (.schedule 0b100111#6) = .ruleAInv 0b00111#5 := by decide
theorem test_decode_ruleBInv : decode (.schedule 0b111111#6) = .ruleBInv 0b11111#5 := by decide
theorem test_decode_g : decode (.gUnit 0#1 3 5) = .g 3 5 := by decide
theorem test_decode_gInv : decode (.gUnit 1#1 3 5) = .gInv 3 5 := by decide
theorem test_decode_gs : decode (.gStage 0#1 1 2 3) = .gs 1 2 3 := by decide
theorem test_decode_gsi : decode (.gStage 1#1 1 2 3) = .gsi 1 2 3 := by decide
theorem test_decode_cv : decode (.keySchedule 0b0001001#7) = .cv 2 1 := by decide
theorem test_decode_f : decode (.fTable 0b01111010#8) = .f 0x7a := by decide

/-- A word wider than the format of its unit is refused by name. -/
theorem test_decode_refuses_wide_word : decodeWord .command 8 = .error (.wordTooWide .command) := rfl

/-- A bare word with its true width, and one rounded up to a byte (log 16). -/
theorem test_table_word_of_true_width : decodeTableWord 6 8 = some (.ruleB 8) := by decide
theorem test_table_word_of_a_byte : decodeTableWord 8 40 = some (.ruleBInv 8) := by decide
theorem test_table_word_too_wide : decodeTableWord 3 8 = none := by decide

/-- The very next step runs the operation a table word was placed for. -/
theorem test_withFetchWord_runs_start : registersOf (step (State.reset.withFetchWord 3 3))
    = some (.busy, .decrypt, 32, ⟨0, 0, 0, 0⟩) := by decide
theorem test_withFetchWord_runs_round : (registersOf (step (State.reset.withFetchWord 6 8))).map (·.2.2.1)
    = some 10 := by decide

/-! ## The sub-operations: 95 section 3 -/

theorem test_f_first : wiresOf (exec (.f 0x00) State.reset) = some (.byte 0xa3) := by decide
theorem test_f_nibbles_swapped : wiresOf (exec (.f 0xa7) State.reset) = some (.byte 0x87) := by decide
theorem test_cv_wraps : wiresOf (exec (.cv 2 3) (busyAt .encrypt 3 ⟨0, 0, 0, 0⟩)) = some (.byte 0x99) := by decide
theorem test_cv_largest : wiresOf (exec (.cv 31 3) (busyAt .encrypt 3 ⟨0, 0, 0, 0⟩)) = some (.byte 0x33) := by decide
theorem test_gs : wiresOf (exec (.gs 0x12 0x34 0x22) State.reset) = some (.pair 0x34 0xd8) := by decide
theorem test_gsi : wiresOf (exec (.gsi 0x31 0x72 0x99) State.reset) = some (.pair 0x22 0x31) := by decide
theorem test_g : wiresOf (exec (.g 31 0xffff) (busyAt .encrypt 1 ⟨0, 0, 0, 0⟩)) = some (.word 0xef64) := by decide
theorem test_gInv : wiresOf (exec (.gInv 31 0xcae2) (busyAt .encrypt 1 ⟨0, 0, 0, 0⟩)) = some (.word 0x1adc) := by decide

/-! ## The round operations: 95 section 4.1 -/

theorem test_ruleA : wordsOf (exec (.ruleA 0) (busyAt .encrypt 1 ⟨0x3322, 0x1100, 0xddcc, 0xbbaa⟩))
    = some ⟨0xb004, 0x0baf, 0x1100, 0xddcc⟩ := by decide
theorem test_ruleB_last : wordsOf (exec (.ruleB 31) (busyAt .encrypt 32 ⟨0x1adc, 0x60ee, 0xd300, 0x2587⟩))
    = some ⟨0x2587, 0xcae2, 0x7a12, 0xd300⟩ := by decide
theorem test_ruleAInv : wordsOf (exec (.ruleAInv 0) (busyAt .decrypt 1 ⟨0xb004, 0x0baf, 0x1100, 0xddcc⟩))
    = some ⟨0x3322, 0x1100, 0xddcc, 0xbbaa⟩ := by decide
theorem test_ruleBInv : wordsOf (exec (.ruleBInv 8) (busyAt .decrypt 9 ⟨0xdd90, 0x1e0b, 0x820b, 0xbe50⟩))
    = some ⟨0xd79b, 0x5599, 0xbe50, 0xdd90⟩ := by decide

/-! ## One step: 95 section 4.2 -/

theorem test_step_round_of_group_change :
    registersOf (step (busyAt .encrypt 8 ⟨0xf9b9, 0xbe50, 0xdd90, 0x820a⟩))
      = some (.busy, .encrypt, 9, ⟨0xd79b, 0x5599, 0xbe50, 0xdd90⟩) := by decide
theorem test_step_last_round_of_decryption :
    registersOf (step (busyAt .decrypt 1 ⟨0xb004, 0x0baf, 0x1100, 0xddcc⟩))
      = some (.done, .decrypt, 1, ⟨0x3322, 0x1100, 0xddcc, 0xbbaa⟩) := by decide
theorem test_step_start_ignored_in_busy :
    registersOf (step (st .busy .encrypt 1 ⟨0x3322, 0x1100, 0xddcc, 0xbbaa⟩ [lineStartDec 5 5]))
      = some (.busy, .encrypt, 2, ⟨0xb004, 0x0baf, 0x1100, 0xddcc⟩) := by decide
theorem test_step_reset_wins_over_start :
    registersOf (step (st .done .decrypt 1 ⟨0x3322, 0x1100, 0xddcc, 0xbbaa⟩ [⟨true, true, false, 1, 1⟩]))
      = some (.idle, .encrypt, 1, ⟨0, 0, 0, 0⟩) := by decide
theorem test_step_start_from_done :
    registersOf (step (st .done .encrypt 32 ⟨0, 0, 0, 0⟩ [lineStartDec keyPortA 0x2587cae27a12d300]))
      = some (.busy, .decrypt, 32, ⟨0x2587, 0xcae2, 0x7a12, 0xd300⟩) := by decide
theorem test_step_start_enc_from_reset :
    registersOf (step (State.reset.drive (lineStartEnc keyPortA 0x33221100ddccbbaa)))
      = some (.busy, .encrypt, 1, ⟨0x3322, 0x1100, 0xddcc, 0xbbaa⟩) := by decide
theorem test_step_nop_from_reset : step State.reset = .next State.reset := rfl

/-- `block_out` shows the words in DONE and zero in BUSY (R30, P6). -/
theorem test_block_out_in_done : (st .done .encrypt 32 ⟨0x2587, 0xcae2, 0x7a12, 0xd300⟩ []).blockOut
    = 0x2587cae27a12d300 := by decide
theorem test_block_out_in_busy : (st .busy .encrypt 32 ⟨0x1adc, 0x60ee, 0xd300, 0x2587⟩ []).blockOut = 0 := by
  decide

/-- The known-answer test, both directions (95 sections 1.2 and 2). -/
theorem test_known_answer_encryption :
    encryptBlock (keyOfPort keyPortA) #v[0x33, 0x22, 0x11, 0x00, 0xdd, 0xcc, 0xbb, 0xaa]
      = #v[0x25, 0x87, 0xca, 0xe2, 0x7a, 0x12, 0xd3, 0x00] := by decide +kernel
theorem test_known_answer_decryption :
    decryptBlock (keyOfPort keyPortA) #v[0x25, 0x87, 0xca, 0xe2, 0x7a, 0x12, 0xd3, 0x00]
      = #v[0x33, 0x22, 0x11, 0x00, 0xdd, 0xcc, 0xbb, 0xaa] := by decide +kernel

/-! ## `WAIT_DONE`: 30_encoding R83, 70_reset_and_hazards R214 -/

theorem test_wait_done_in_done : (st .done .decrypt 1 ⟨1, 2, 3, 4⟩ []).waitDone = some [Ports.idle] := by decide
theorem test_wait_done_before_the_last_round :
    (busyAt .decrypt 2 ⟨1, 2, 3, 4⟩).waitDone = some [Ports.idle, Ports.idle] := by decide

/-! ## Witnesses: every statement's hypotheses can be met

Named after the statement; a statement with several clauses has a witness for each, at the ends of the
clause's range. -/

/-- Both ends of every group of rounds, and words of each mask. -/
theorem witness_ScheduleWordSelectsTheRule :
    (∀ r ∈ [1, 8, 9, 16, 17, 24, 25, 32], 1 ≤ r ∧ r ≤ 32)
      ∧ (∀ r ∈ [1, 8, 17, 24], (1 ≤ r ∧ r ≤ 8) ∨ (17 ≤ r ∧ r ≤ 24))
      ∧ (∀ r ∈ [9, 16, 25, 32], ¬((1 ≤ r ∧ r ≤ 8) ∨ (17 ≤ r ∧ r ≤ 24)))
      ∧ 0b010111#6 &&& 0b101000#6 = 0b000000#6 ∧ 0b001000#6 &&& 0b101000#6 = 0b001000#6
      ∧ 0b110111#6 &&& 0b101000#6 = 0b100000#6 ∧ 0b111111#6 &&& 0b101000#6 = 0b101000#6 := by decide

/-- Also for the second clause of `RuleAResult`, `RuleBResult`, `RuleAInvResult`, `RuleBInvResult`. -/
theorem witness_RuleResults : 0b000000#6 &&& 0b101000#6 = 0b000000#6 ∧ 0b011111#6 &&& 0b101000#6 = 0b001000#6
    ∧ 0b100000#6 &&& 0b101000#6 = 0b100000#6 ∧ 0b101000#6 &&& 0b101000#6 = 0b101000#6 := by decide

theorem witness_DecodeOfEncodeGivesTheOperation : (Instr.ruleA 0).wellFormed = true
    ∧ (Instr.ruleB 31).wellFormed = true ∧ (Instr.startDec 1 2).wellFormed = true := by decide

theorem witness_OpcodeRowsAreDisjointAndCover : Instr.row (.gs 0 0 0) ∈ opcodeTable
    ∧ (Instr.row (.gs 0 0 0)).unit = (Issue.gStage 0#1 1 2 3).unit := by decide

theorem witness_ByteIndices : (0 < 8 ∧ 7 < 8) ∧ (0 < 10 ∧ 9 < 10) := by decide

theorem witness_KeyScheduleHasPeriodFive : (0 : BitVec 5).toNat % 5 = (30 : BitVec 5).toNat % 5
    ∧ (4 : BitVec 5).toNat % 5 = (29 : BitVec 5).toNat % 5 := by decide

theorem witness_RoundOperationsWriteOnlyTheWords :
    Instr.ruleBInv 31 = .ruleA 31 ∨ Instr.ruleBInv 31 = .ruleB 31 ∨ Instr.ruleBInv 31 = .ruleAInv 31
      ∨ Instr.ruleBInv 31 = .ruleBInv 31 := by decide

theorem witness_SubOperationsWriteNoRegister :
    Instr.f 9 = .g 0 0 ∨ Instr.f 9 = .gInv 0 0 ∨ Instr.f 9 = .gs 0 0 0 ∨ Instr.f 9 = .gsi 0 0 0
      ∨ Instr.f 9 = .cv 0 0 ∨ Instr.f 9 = .f 9 := by decide

/-- A reset in the last round of an operation, at both ends of the counter. -/
theorem witness_ResetRestoresEveryRegister :
    (st .busy .encrypt 32 ⟨1, 2, 3, 4⟩ [lineReset]).Legal
      ∧ (st .busy .encrypt 32 ⟨1, 2, 3, 4⟩ [lineReset]).sample.rst = true
      ∧ (st .busy .decrypt 1 ⟨1, 2, 3, 4⟩ [lineReset]).Legal := by decide

theorem witness_NopWritesNothing :
    (st .done .encrypt 32 ⟨1, 2, 3, 4⟩ []).Legal ∧ (st .done .encrypt 32 ⟨1, 2, 3, 4⟩ []).phase ≠ .busy
      ∧ (st .done .encrypt 32 ⟨1, 2, 3, 4⟩ []).sample.rst = false
      ∧ (st .done .encrypt 32 ⟨1, 2, 3, 4⟩ []).sample.start = false := by decide

/-- Both phases that accept a start. -/
theorem witness_StartEncLoadsTheOperands : (State.reset.phase = .idle ∨ State.reset.phase = .done)
    ∧ ((st .done .decrypt 1 ⟨1, 2, 3, 4⟩ []).phase = .idle ∨ (st .done .decrypt 1 ⟨1, 2, 3, 4⟩ []).phase = .done) := by
  decide

theorem witness_StartDecLoadsTheOperands : State.reset.phase = .idle ∨ State.reset.phase = .done := by decide

theorem witness_StartIsAcceptedInIdleOrDoneOnly :
    (busyAt .encrypt 32 ⟨1, 2, 3, 4⟩).Legal ∧ (busyAt .encrypt 32 ⟨1, 2, 3, 4⟩).phase = .busy
      ∧ (lineStartDec 1 2).rst = false ∧ (lineStartDec 1 2).start = true
      ∧ State.reset.Legal := by decide

/-- A command and a round. -/
theorem witness_StepRunsTheFetchedOperation :
    (∃ e t, State.reset.fetch = .ok e ∧ exec (decode e) State.reset = .next t)
      ∧ ∃ e t, (busyAt .encrypt 32 ⟨1, 2, 3, 4⟩).fetch = .ok e
        ∧ exec (decode e) (busyAt .encrypt 32 ⟨1, 2, 3, 4⟩) = .next t :=
  ⟨⟨_, _, rfl, rfl⟩, ⟨_, _, rfl, rfl⟩⟩

/-- A legal state for each branch of `PhaseFixesTheFormat`, `StepFollowsThePriority`,
`PhaseTransitionsAreTheStatedOnes`, `CounterMovesAsStated`, `KeyIsWrittenByStartAndResetOnly` and
`LegalStatesStepToLegalStates`; each of them answers a next state. -/
theorem witness_PhaseFixesTheFormat :
    ∀ s ∈ [st .busy .encrypt 1 ⟨1, 2, 3, 4⟩ [lineReset], busyAt .encrypt 1 ⟨1, 2, 3, 4⟩,
        busyAt .encrypt 32 ⟨1, 2, 3, 4⟩, busyAt .decrypt 32 ⟨1, 2, 3, 4⟩, busyAt .decrypt 1 ⟨1, 2, 3, 4⟩,
        st .idle .encrypt 1 ⟨0, 0, 0, 0⟩ [lineStartEnc 1 2], st .done .decrypt 1 ⟨1, 2, 3, 4⟩ [lineStartDec 1 2],
        State.reset], s.Legal := by decide

theorem witness_StepFollowsThePriority :
    ∀ s ∈ [st .busy .encrypt 1 ⟨1, 2, 3, 4⟩ [lineReset], busyAt .encrypt 1 ⟨1, 2, 3, 4⟩,
        busyAt .encrypt 32 ⟨1, 2, 3, 4⟩, busyAt .decrypt 32 ⟨1, 2, 3, 4⟩, busyAt .decrypt 1 ⟨1, 2, 3, 4⟩,
        st .idle .encrypt 1 ⟨0, 0, 0, 0⟩ [lineStartEnc 1 2], st .done .decrypt 1 ⟨1, 2, 3, 4⟩ [lineStartDec 1 2],
        State.reset], (registersOf (step s)).isSome = true := by decide

theorem witness_CounterMovesAsStated : ∃ t, (busyAt .encrypt 32 ⟨1, 2, 3, 4⟩).Legal
    ∧ step (busyAt .encrypt 32 ⟨1, 2, 3, 4⟩) = .next t := ⟨_, by decide, rfl⟩

theorem witness_PhaseTransitionsAreTheStatedOnes : ∃ t, (busyAt .decrypt 1 ⟨1, 2, 3, 4⟩).Legal
    ∧ step (busyAt .decrypt 1 ⟨1, 2, 3, 4⟩) = .next t := ⟨_, by decide, rfl⟩

/-- The second clause's hypotheses too. -/
theorem witness_KeyIsWrittenByStartAndResetOnly : ∃ t, (busyAt .decrypt 2 ⟨1, 2, 3, 4⟩).Legal
    ∧ step (busyAt .decrypt 2 ⟨1, 2, 3, 4⟩) = .next t ∧ (busyAt .decrypt 2 ⟨1, 2, 3, 4⟩).phase = .busy
    ∧ (busyAt .decrypt 2 ⟨1, 2, 3, 4⟩).sample.rst = false := ⟨_, by decide, rfl, by decide, by decide⟩

/-- The first clause: a start that changes the key. -/
theorem witness_KeyIsWrittenByStart : ∃ t, (State.reset.drive (lineStartEnc 1 2)).Legal
    ∧ step (State.reset.drive (lineStartEnc 1 2)) = .next t
    ∧ t.keyr ≠ (State.reset.drive (lineStartEnc 1 2)).keyr := ⟨_, by decide, rfl, by decide⟩

/-- The third clause: from its first to its last count of steps. -/
theorem witness_KeyStaysForTheOperation : ∀ n ∈ [0, 32],
    ({ State.reset with host := lineStartDec 1 2 :: linesNop 32 }).Legal
      ∧ ({ State.reset with host := lineStartDec 1 2 :: linesNop 32 }).phase ≠ .busy
      ∧ (lineStartDec 1 2).rst = false ∧ (lineStartDec 1 2).start = true ∧ n ≤ 32
      ∧ ∀ q ∈ (linesNop 32).take n, q.rst = false := by decide

/-- The first, an inner and the last round of an encryption. -/
theorem witness_EncryptionRoundStep : ∀ c ∈ [1#6, 16#6, 32#6],
    (busyAt .encrypt c ⟨1, 2, 3, 4⟩).Legal ∧ (busyAt .encrypt c ⟨1, 2, 3, 4⟩).sample.rst = false
      ∧ (busyAt .encrypt c ⟨1, 2, 3, 4⟩).phase = .busy ∧ (busyAt .encrypt c ⟨1, 2, 3, 4⟩).mode = .encrypt := by
  decide

/-- The first, an inner and the last round of a decryption. -/
theorem witness_DecryptionRoundStep : ∀ c ∈ [32#6, 17#6, 1#6],
    (busyAt .decrypt c ⟨1, 2, 3, 4⟩).Legal ∧ (busyAt .decrypt c ⟨1, 2, 3, 4⟩).sample.rst = false
      ∧ (busyAt .decrypt c ⟨1, 2, 3, 4⟩).phase = .busy ∧ (busyAt .decrypt c ⟨1, 2, 3, 4⟩).mode = .decrypt := by
  decide

/-- Both directions of the first clause, and the second. -/
theorem witness_ResultStaysUntilStartOrReset :
    (∀ s ∈ [busyAt .encrypt 32 ⟨1, 2, 3, 4⟩, busyAt .decrypt 1 ⟨1, 2, 3, 4⟩],
      s.Legal ∧ s.phase = .busy ∧ s.sample.rst = false ∧ s.ctr = s.mode.lastCounter)
    ∧ (st .done .encrypt 32 ⟨1, 2, 3, 4⟩ (linesNop 2)).Legal
    ∧ ∀ q ∈ (st .done .encrypt 32 ⟨1, 2, 3, 4⟩ (linesNop 2)).host.take 5, q.rst = false ∧ q.start = false := by
  decide

theorem witness_BusyStepReadsOnlyRst : (busyAt .encrypt 7 ⟨1, 2, 3, 4⟩).phase = .busy
    ∧ (lineStartDec 1 2).rst = Ports.idle.rst ∧ lineReset.rst = (⟨true, true, true, 5, 5⟩ : Ports).rst := by decide

theorem witness_NoUnitValueCrossesAStep : ∃ t, step State.reset = .next t := ⟨_, rfl⟩

/-- A fresh engine, and one that holds an old result and key. -/
theorem witness_OperationForgetsWhatWentBefore :
    let s := State.reset.drive (lineStartEnc 1 2)
    let s' := st .done .decrypt 1 ⟨1, 2, 3, 4⟩ [lineStartEnc 1 2]
    s.Legal ∧ s'.Legal ∧ s.phase ≠ .busy ∧ s'.phase ≠ .busy ∧ s.host = s'.host ∧ s.sample.rst = false
      ∧ s.sample.start = true := by decide

/-- The second clause: the ports differ after the start. -/
theorem witness_OperationForgetsItsLaterPorts :
    let s := State.reset.drive (lineStartEnc 1 2)
    let s' := st .done .decrypt 1 ⟨1, 2, 3, 4⟩ (lineStartEnc 1 2 :: List.replicate 32 (lineStartDec 3 4))
    s.Legal ∧ s'.Legal ∧ s.phase ≠ .busy ∧ s'.phase ≠ .busy ∧ s.host = lineStartEnc 1 2 :: []
      ∧ s'.host = lineStartEnc 1 2 :: List.replicate 32 (lineStartDec 3 4)
      ∧ (lineStartEnc 1 2).rst = false ∧ (lineStartEnc 1 2).start = true
      ∧ (∀ q ∈ ([] : List Ports).take 32, q.rst = false)
      ∧ ∀ q ∈ (List.replicate 32 (lineStartDec 3 4)).take 32, q.rst = false := by decide

/-- The reserved phase; the counters next to the legal range; and a step that answers. -/
theorem witness_IllegalStatesAreRefused :
    (st .reserved .encrypt 1 ⟨0, 0, 0, 0⟩ []).phase = .reserved
      ∧ (∀ c ∈ [0#6, 33#6, 63#6], (busyAt .encrypt c ⟨0, 0, 0, 0⟩).phase ≠ .reserved
        ∧ ((busyAt .encrypt c ⟨0, 0, 0, 0⟩).ctr.toNat = 0 ∨ 32 < (busyAt .encrypt c ⟨0, 0, 0, 0⟩).ctr.toNat))
      ∧ (registersOf (step State.reset)).isSome = true := by decide

theorem witness_LegalStatesStepToLegalStates : (busyAt .decrypt 32 ⟨1, 2, 3, 4⟩).Legal := by decide

/-- In each phase. -/
theorem witness_EveryStepKeepsTheInvariant :
    State.reset.Inv ∧ (busyAt .encrypt 5 ⟨1, 2, 3, 4⟩).Inv ∧ (st .done .decrypt 1 ⟨1, 2, 3, 4⟩ []).Inv
      ∧ (registersOf (step (busyAt .encrypt 5 ⟨1, 2, 3, 4⟩))).isSome = true := by decide

/-- From IDLE and from DONE, with the ports driven during the operation. -/
theorem witness_EngineComputesEncryptBlock :
    let k := keyOfPort keyPortA
    let b : Vector Byte 8 := #v[1, 2, 3, 4, 5, 6, 7, 8]
    let p := lineStartEnc (keyPortOfBytes k) (blockPortOfBytes b)
    let rest := List.replicate 32 (lineStartDec 3 4)
    ∀ s ∈ [{ State.reset with host := p :: rest }, st .done .decrypt 1 ⟨1, 2, 3, 4⟩ (p :: rest)],
      s.Legal ∧ (s.phase = .idle ∨ s.phase = .done) ∧ s.host = p :: rest ∧ p.rst = false ∧ p.start = true
        ∧ p.decrypt = false ∧ p.keyIn = keyPortOfBytes k ∧ p.blockIn = blockPortOfBytes b
        ∧ ∀ q ∈ rest.take 32, q.rst = false := by decide +kernel

/-- From IDLE, the list of samples ending with the start, and from DONE. -/
theorem witness_EngineComputesDecryptBlock :
    let k := keyOfPort keyPortA
    let b : Vector Byte 8 := #v[1, 2, 3, 4, 5, 6, 7, 8]
    let p := lineStartDec (keyPortOfBytes k) (blockPortOfBytes b)
    ∀ rest ∈ [[], List.replicate 32 (lineStartEnc 3 4)],
      ∀ s ∈ [{ State.reset with host := p :: rest }, st .done .encrypt 32 ⟨1, 2, 3, 4⟩ (p :: rest)],
        s.Legal ∧ (s.phase = .idle ∨ s.phase = .done) ∧ s.host = p :: rest ∧ p.rst = false ∧ p.start = true
          ∧ p.decrypt = true ∧ p.keyIn = keyPortOfBytes k ∧ p.blockIn = blockPortOfBytes b
          ∧ ∀ q ∈ rest.take 32, q.rst = false := by decide +kernel

/-- Both directions, and both ends of the step count. -/
theorem witness_OperationTakesThirtyTwoRoundSteps :
    (∀ p ∈ [lineStartEnc 1 2, lineStartDec 1 2],
      let s := { State.reset with host := p :: linesNop 32 }
      s.Legal ∧ (s.phase = .idle ∨ s.phase = .done) ∧ s.host = p :: linesNop 32 ∧ p.rst = false ∧ p.start = true
        ∧ ∀ q ∈ (linesNop 32).take 32, q.rst = false)
    ∧ 0 < 32 ∧ 31 < 32 := by decide +kernel

/-- The longest way to go, and the second clause. -/
theorem witness_EngineIsNotBusyWithinThirtyTwoSteps :
    (busyAt .encrypt 1 ⟨1, 2, 3, 4⟩).Legal
      ∧ (∀ q ∈ (busyAt .encrypt 1 ⟨1, 2, 3, 4⟩).host.take 32, q.rst = false)
      ∧ State.reset.Legal ∧ State.reset.busy = false ∧ State.reset.sample.rst = false
      ∧ State.reset.sample.start = false := by decide

/-- Both phases. -/
theorem witness_HostProgramsReadTheResult :
    ∀ s ∈ [State.reset, st .done .decrypt 1 ⟨1, 2, 3, 4⟩ []], s.Legal ∧ (s.phase = .idle ∨ s.phase = .done) := by
  decide

/-- Each phase, and both ends of the rounds still to go. -/
theorem witness_WaitDoneIsNopUntilDone :
    (st .done .encrypt 32 ⟨1, 2, 3, 4⟩ []).Legal ∧ State.reset.Legal
      ∧ (∀ c ∈ [1#6, 32#6], (busyAt .encrypt c ⟨1, 2, 3, 4⟩).Legal ∧ (busyAt .decrypt c ⟨1, 2, 3, 4⟩).Legal)
      ∧ (busyAt .encrypt 31 ⟨1, 2, 3, 4⟩).waitDone = some [Ports.idle, Ports.idle] := by decide

/-- A command and a round. -/
theorem witness_PresentedOperationIsFetchedNext :
    ((Instr.startEnc 1 2).wellFormed = true ∧ (Instr.startEnc 1 2).row.unit = .command)
      ∧ ((Instr.ruleBInv 31).wellFormed = true ∧ (Instr.ruleBInv 31).row.unit = .schedule) := by decide

end Sys2Proof.Tests
end

section
/-! PROOFS. The step runs the operation it fetched (44_driver R146, R151, R152). -/

namespace Sys2Proof.Machine

/-- The step performs what it fetched and retires it; the converse of `step_next_cases` (R14, R146). -/
theorem step_of_fetch_of_exec {s t : State} {e : Issue} (hf : s.fetch = .ok e)
    (hx : exec (decode e) s = .next t) : step s = .next (t.retire e) := by
  simp only [step, hf, hx]

/-- The end of a round's step: the counter advance comes first and leaves the port samples alone (R151, R152). -/
theorem State.retire_schedule (t : State) (w : BitVec 6) :
    t.retire (.schedule w) = { t.advanceCounter with host := t.host.tail, unitOut := .none } := by
  rw [State.retire, State.endStep, State.advanceCounter_host]

/-- The end of a command's step: the registers stay as the command left them (R146). -/
theorem State.retire_command (t : State) (cmd : BitVec 3) (key : BitVec 80) (block : BitVec 64) :
    t.retire (.command cmd key block) = { t with host := t.host.tail, unitOut := .none } := rfl

/-- Settles O37, from what the fetch can hand out: a schedule word or a command. -/
theorem stepRunsTheFetchedOperation : Obligations.StepRunsTheFetchedOperation := by
  intro s t e hf hx
  have hstep : step s = .next (t.retire e) := step_of_fetch_of_exec hf hx
  obtain ⟨-, ⟨-, -, rfl⟩ | ⟨-, rfl⟩⟩ := s.fetch_ok_cases hf
  · rw [hstep, State.retire_schedule]
  · rw [hstep, State.retire_command]

end Sys2Proof.Machine
end

section
/-! PROOFS. What a step can do, register by register: the five forms of its next state (R25, R28, R146). -/

namespace Sys2Proof.Machine

/-! ## What the fetched operation is and does -/

/-- The bits of `CMD` are the ports (R71). -/
theorem Ports.cmd_bits (p : Ports) :
    p.cmd.getLsbD 2 = p.rst ∧ p.cmd.getLsbD 1 = p.start ∧ p.cmd.getLsbD 0 = p.decrypt := by
  have hbits : ∀ r s d : Bool, ∀ cmd : BitVec 3, BitVec.ofBool r ++ BitVec.ofBool s ++ BitVec.ofBool d = cmd →
      cmd.getLsbD 2 = r ∧ cmd.getLsbD 1 = s ∧ cmd.getLsbD 0 = d := by decide
  exact hbits p.rst p.start p.decrypt p.cmd rfl

/-- The command table on the port bits themselves (R71). -/
theorem decode_command_cmd (p : Ports) (key : BitVec 80) (block : BitVec 64) :
    decode (.command p.cmd key block) =
      if p.rst then .reset p.start p.decrypt
      else if p.start then if p.decrypt then .startDec key block else .startEnc key block
      else .nop p.decrypt := by
  obtain ⟨hrst, hstart, hdecrypt⟩ := p.cmd_bits
  rw [decode, decodeCommand, hrst, hstart, hdecrypt]

/-- Whatever round the schedule word selects, it writes the four words and nothing else (R125). -/
theorem exec_decode_schedule (sw : BitVec 6) (s : State) :
    ∃ x, exec (decode (.schedule sw)) s = .next (s.writeWords x) := by
  simp only [decode, decodeSchedule]
  split <;> split <;> exact ⟨_, rfl⟩

/-- Of the legal phases only BUSY takes no start (R148). -/
theorem Phase.acceptsStart_iff (p : Phase) : p.acceptsStart = true ↔ p ≠ .reserved ∧ p ≠ .busy := by
  cases p <;> decide

/-! ## The forms of the next state -/

/-- The states a step can lead to, one form for each operation a step can perform (R73, R146). -/
inductive State.StepsTo (s : State) : State → Prop
  /-- `RESET`, in any phase (R200). -/
  | reset (hrst : s.sample.rst = true) : s.StepsTo s.resetRegisters.endStep
  /-- The round in progress: its words, then the counter advance (R151, R152). -/
  | round {x : Words} (hrst : s.sample.rst = false) (hphase : s.phase = .busy)
      (hexec : exec (decode (.schedule s.scheduleWord)) s = .next (s.writeWords x)) :
      s.StepsTo (s.writeWords x).advanceCounter.endStep
  /-- An accepted `START_ENC` (R149). -/
  | startEnc (hrst : s.sample.rst = false) (hphase : s.phase ≠ .busy) (hstart : s.sample.start = true)
      (hdecrypt : s.sample.decrypt = false) :
      s.StepsTo ((s.loadOperands s.sample.keyIn s.sample.blockIn).setControl .encrypt 1 .busy).endStep
  /-- An accepted `START_DEC` (R150). -/
  | startDec (hrst : s.sample.rst = false) (hphase : s.phase ≠ .busy) (hstart : s.sample.start = true)
      (hdecrypt : s.sample.decrypt = true) :
      s.StepsTo ((s.loadOperands s.sample.keyIn s.sample.blockIn).setControl .decrypt 32 .busy).endStep
  /-- `NOP` (R147). -/
  | nop (hrst : s.sample.rst = false) (hphase : s.phase ≠ .busy) (hstart : s.sample.start = false) :
      s.StepsTo s.endStep

/-- A start fetched in a legal state that is not BUSY is accepted (R148). -/
theorem State.startWith_of_legal {s : State} (hl : s.Legal) (hb : s.phase ≠ .busy) (key : BitVec 80)
    (block : BitVec 64) (m : Mode) (c : BitVec 6) :
    s.startWith key block m c = (s.loadOperands key block).setControl m c .busy :=
  State.startWith_of_accepts (s.phase.acceptsStart_iff.mpr ⟨hl.1, hb⟩) key block m c

/-- The command a legal state fetches leads to one of the forms (R73, R146). -/
theorem State.stepsTo_of_exec_command {s u : State} (hl : s.Legal)
    (hcmd : s.sample.rst = true ∨ s.phase ≠ .busy)
    (hx : exec (decode (.command s.sample.cmd s.sample.keyIn s.sample.blockIn)) s = .next u) :
    s.StepsTo u.endStep := by
  rw [decode_command_cmd] at hx
  cases hrst : s.sample.rst with
  | true =>
    rw [hrst] at hx
    cases hx
    exact .reset hrst
  | false =>
    have hb : s.phase ≠ .busy := hcmd.resolve_left (by simp [hrst])
    cases hstart : s.sample.start with
    | false =>
      rw [hrst, hstart] at hx
      cases hx
      exact .nop hrst hb hstart
    | true =>
      cases hdecrypt : s.sample.decrypt with
      | false =>
        rw [hrst, hstart, hdecrypt] at hx
        cases hx
        rw [State.startWith_of_legal hl hb]
        exact .startEnc hrst hb hstart hdecrypt
      | true =>
        rw [hrst, hstart, hdecrypt] at hx
        cases hx
        rw [State.startWith_of_legal hl hb]
        exact .startDec hrst hb hstart hdecrypt

/-- A step answers in legal states only, and then with one of the forms (R34, R146). -/
theorem step_next_stepsTo {s t : State} (h : step s = .next t) : s.Legal ∧ s.StepsTo t := by
  obtain ⟨e, u, hf, hx, rfl⟩ := step_next_cases h
  obtain ⟨hl, ⟨hrst, hb, rfl⟩ | ⟨hcmd, rfl⟩⟩ := s.fetch_ok_cases hf
  · obtain ⟨x, hround⟩ := exec_decode_schedule s.scheduleWord s
    obtain rfl : s.writeWords x = u := by simpa [hround] using hx
    exact ⟨hl, .round hrst hb hround⟩
  · exact ⟨hl, s.stepsTo_of_exec_command hl hcmd hx⟩

/-! ## The counter advance as numbers -/

/-- A round of an encryption: up by one below 32, the last round at 32 (R25, R151). -/
theorem State.advanceCounter_of_encrypt {s : State} (hl : s.Legal) (hm : s.mode = .encrypt) :
    (s.ctr.toNat < 32 ∧ s.advanceCounter.ctr.toNat = s.ctr.toNat + 1 ∧ s.advanceCounter.phase = s.phase)
      ∨ (s.ctr.toNat = 32 ∧ s.advanceCounter.ctr = s.ctr ∧ s.advanceCounter.phase = .done) := by
  obtain ⟨-, -, hle⟩ := hl
  rw [State.advanceCounter_ctr, State.advanceCounter_phase, hm]
  by_cases hlast : s.ctr = Mode.encrypt.lastCounter
  · exact .inr ⟨by rw [hlast]; rfl, by simp [hlast], by simp [hlast]⟩
  · have hlt : s.ctr.toNat < 32 := by
      have : s.ctr ≠ 32#6 := hlast
      bv_omega
    refine .inl ⟨hlt, ?_, by simp [hlast]⟩
    simp only [hlast, if_false]
    bv_omega

/-- A round of a decryption: down by one above 1, the last round at 1 (R25, R152). -/
theorem State.advanceCounter_of_decrypt {s : State} (hl : s.Legal) (hm : s.mode = .decrypt) :
    (1 < s.ctr.toNat ∧ s.advanceCounter.ctr.toNat + 1 = s.ctr.toNat ∧ s.advanceCounter.phase = s.phase)
      ∨ (s.ctr.toNat = 1 ∧ s.advanceCounter.ctr = s.ctr ∧ s.advanceCounter.phase = .done) := by
  obtain ⟨-, hge, -⟩ := hl
  rw [State.advanceCounter_ctr, State.advanceCounter_phase, hm]
  by_cases hlast : s.ctr = Mode.decrypt.lastCounter
  · exact .inr ⟨by rw [hlast]; rfl, by simp [hlast], by simp [hlast]⟩
  · have hlt : 1 < s.ctr.toNat := by
      have : s.ctr ≠ 1#6 := hlast
      bv_omega
    refine .inl ⟨hlt, ?_, by simp [hlast]⟩
    simp only [hlast, if_false]
    bv_omega

/-- The counter advance does not leave the legal states (R26). -/
theorem State.advanceCounter_legal {s : State} (hl : s.Legal) : s.advanceCounter.Legal := by
  obtain ⟨hp, hge, hle⟩ := id hl
  cases hm : s.mode with
  | encrypt =>
    obtain ⟨hlt, hc, hph⟩ | ⟨-, hc, hph⟩ := State.advanceCounter_of_encrypt hl hm
    · exact ⟨hph ▸ hp, by omega, by omega⟩
    · exact ⟨by simp [hph], hc ▸ hge, hc ▸ hle⟩
  | decrypt =>
    obtain ⟨hlt, hc, hph⟩ | ⟨-, hc, hph⟩ := State.advanceCounter_of_decrypt hl hm
    · exact ⟨hph ▸ hp, by omega, by omega⟩
    · exact ⟨by simp [hph], hc ▸ hge, hc ▸ hle⟩

/-- Every step that completes leads to a legal state (R26, R34). -/
theorem step_next_legal {s t : State} (h : step s = .next t) : t.Legal := by
  obtain ⟨hl, hst⟩ := step_next_stepsTo h
  cases hst with
  | reset => exact (by decide : State.reset.Legal)
  | @round x => exact State.advanceCounter_legal (s := s.writeWords x) hl
  | startEnc => exact ⟨nofun, (by decide : 1 ≤ (1#6).toNat ∧ (1#6).toNat ≤ 32)⟩
  | startDec => exact ⟨nofun, (by decide : 1 ≤ (32#6).toNat ∧ (32#6).toNat ≤ 32)⟩
  | nop => exact hl

end Sys2Proof.Machine
end

section
/-! PROOFS. State and outputs (10_state): the invariant of the step, the counter, the phase, the outputs. -/

namespace Sys2Proof.Machine

/-! ## The invariant -/

/-- An engine whose registers are reset and whose wires are empty meets the invariant (R33). -/
theorem State.inv_of_registersReset {s : State} (hr : s.RegistersReset) (hu : s.unitOut = .none) : s.Inv := by
  obtain ⟨-, -, hc, -, hp⟩ := id hr
  refine ⟨?_, fun _ => hr, ?_, hu⟩
  · rw [State.Legal, hc, hp]
    decide
  · rw [hp]
    nofun

/-- A round's step meets the invariant: it never leads to IDLE, and to DONE from the last counter only (R153). -/
theorem State.inv_of_round {s : State} (hl : s.Legal) (hb : s.phase = .busy) : s.advanceCounter.endStep.Inv := by
  refine ⟨State.advanceCounter_legal hl, ?_, ?_, rfl⟩
  · rw [State.endStep_phase, State.advanceCounter_phase, hb]
    split <;> nofun
  · rw [State.endStep_phase, State.advanceCounter_phase, State.endStep_ctr, State.advanceCounter_ctr,
      State.endStep_mode, State.advanceCounter_mode, hb]
    split
    · exact fun _ => ‹_›
    · nofun

/-- Settles O52, by the forms of the next state: `RESET`, a round, a start, `NOP`. -/
theorem everyStepKeepsTheInvariant : Obligations.EveryStepKeepsTheInvariant := by
  intro s t hinv h
  obtain ⟨-, hidle, hdone, -⟩ := hinv
  obtain ⟨hl, hst⟩ := step_next_stepsTo h
  cases hst with
  | reset => exact State.inv_of_registersReset ⟨rfl, rfl, rfl, rfl, rfl⟩ rfl
  | @round x hrst hb => exact State.inv_of_round (s := s.writeWords x) hl hb
  | startEnc => exact ⟨step_next_legal h, nofun, nofun, rfl⟩
  | startDec => exact ⟨step_next_legal h, nofun, nofun, rfl⟩
  | nop => exact ⟨hl, hidle, hdone, rfl⟩

/-- Settles O51: the registers are reset and the wires are empty. -/
theorem resetStateMeetsTheInvariant : Obligations.ResetStateMeetsTheInvariant :=
  State.inv_of_registersReset ⟨rfl, rfl, rfl, rfl, rfl⟩ rfl

/-! ## The counter and the phase -/

/-- Settles O42, by the forms of the next state; a round's counter is that of `advanceCounter`. -/
theorem counterMovesAsStated : Obligations.CounterMovesAsStated := by
  intro s t hl h
  obtain ⟨-, hst⟩ := step_next_stepsTo h
  cases hst with
  | reset hrst =>
    rw [if_pos hrst]
    rfl
  | @round x hrst hb =>
    simp only [hrst, Bool.false_eq_true, if_false, if_pos hb, State.endStep_ctr, State.endStep_phase]
    have hl' : (s.writeWords x).Legal := hl
    cases hm : s.mode with
    | encrypt =>
      obtain ⟨hlt, hc, hp⟩ | ⟨heq, hc, hp⟩ := State.advanceCounter_of_encrypt hl' hm
      · exact (if_pos hlt).mpr ⟨hc, hp.trans hb⟩
      · simpa [show s.ctr.toNat = 32 from heq] using ⟨hc, hp⟩
    | decrypt =>
      obtain ⟨hlt, hc, hp⟩ | ⟨heq, hc, hp⟩ := State.advanceCounter_of_decrypt hl' hm
      · simpa [show 1 < s.ctr.toNat from hlt] using ⟨hc, hp.trans hb⟩
      · simpa [show s.ctr.toNat = 1 from heq] using ⟨hc, hp⟩
  | startEnc hrst hb hstart hdecrypt => simp [hrst, hb, hstart, hdecrypt]
  | startDec hrst hb hstart hdecrypt => simp [hrst, hb, hstart, hdecrypt]
  | nop hrst hb hstart => simp [hrst, hb, hstart]

/-- Settles O43, by the forms of the next state; a round's phase is that of `advanceCounter`. -/
theorem phaseTransitionsAreTheStatedOnes : Obligations.PhaseTransitionsAreTheStatedOnes := by
  refine ⟨⟨rfl, rfl, rfl, rfl⟩, fun s t _ h => ?_⟩
  obtain ⟨-, hst⟩ := step_next_stepsTo h
  cases hst with
  | reset hrst =>
    rw [if_pos hrst]
    rfl
  | round hrst hb => simp [hrst, hb, State.advanceCounter_phase]
  | startEnc hrst hb hstart => simp [hrst, hb, hstart]
  | startDec hrst hb hstart => simp [hrst, hb, hstart]
  | nop hrst hb hstart => simp [hrst, hb, hstart]

/-! ## The output wires of the units -/

theorem State.startWith_emit (s : State) (v : UnitOut) (key : BitVec 80) (block : BitVec 64) (m : Mode)
    (c : BitVec 6) : (s.emit v).startWith key block m c = (s.startWith key block m c).emit v := by
  unfold State.startWith
  rw [State.emit_phase]
  split <;> rfl

theorem State.advanceCounter_emit (s : State) (v : UnitOut) :
    (s.emit v).advanceCounter = s.advanceCounter.emit v := by
  unfold State.advanceCounter
  rw [State.emit_mode, State.emit_ctr]
  split <;> split <;> rfl

/-- No operation reads the wires: what they carry changes nothing but the wires after it (R32). -/
theorem exec_emit {i : Instr} {s u : State} (hx : exec i s = .next u) (v : UnitOut) :
    ∃ u', exec i (s.emit v) = .next u' ∧ u'.emit .none = u.emit .none := by
  cases i
  case startEnc key block =>
    cases hx
    exact ⟨_, rfl, by rw [State.startWith_emit]; rfl⟩
  case startDec key block =>
    cases hx
    exact ⟨_, rfl, by rw [State.startWith_emit]; rfl⟩
  all_goals
    cases hx
    exact ⟨_, rfl, rfl⟩

/-- The end of a step clears the wires, so what they carried does not matter (R32). -/
theorem State.retire_emit (s : State) (v : UnitOut) (e : Issue) : (s.emit v).retire e = s.retire e := by
  cases e
  case schedule sw =>
    simp only [State.retire, State.advanceCounter_emit]
    rfl
  all_goals rfl

/-- The step does not see the wires: not in what it fetches, performs or retires (R32). -/
theorem step_emit (s : State) (v : UnitOut) : step (s.emit v) = step s := by
  have hfetch : (s.emit v).fetch = s.fetch := rfl
  cases hf : s.fetch with
  | error r => simp only [step, hfetch, hf]
  | ok e =>
    obtain ⟨u, hu, -⟩ := exec_answers (decode e) s
    obtain ⟨u', hu', hwires⟩ := exec_emit hu v
    have hretire : u'.retire e = u.retire e := by
      rw [← u'.retire_emit .none, hwires, State.retire_emit]
    rw [step_of_fetch_of_exec (hfetch.trans hf) hu', step_of_fetch_of_exec hf hu, hretire]

/-- Settles O47: the step does not see the wires, and its end clears them. -/
theorem noUnitValueCrossesAStep : Obligations.NoUnitValueCrossesAStep :=
  fun s v => ⟨step_emit s v, fun _ h => (step_next_host h).2⟩

/-! ## Illegal states -/

/-- A refused fetch is a refused step (R34). -/
theorem step_of_fetch_error {s : State} {r : Refusal} (hf : s.fetch = .error r) : step s = .refused r := by
  simp only [step, hf]

theorem State.fetch_of_reserved {s : State} (hp : s.phase = .reserved) : s.fetch = .error .reservedPhase := by
  simp only [State.fetch, hp, if_true]

theorem State.fetch_of_counterOutOfRange {s : State} (hp : s.phase ≠ .reserved)
    (hc : s.ctr.toNat = 0 ∨ 32 < s.ctr.toNat) : s.fetch = .error .counterOutOfRange := by
  have hrange : s.counterInRange = false := by
    rw [← Bool.not_eq_true, State.counterInRange_iff]
    omega
  simp only [State.fetch, hp, hrange, if_false, if_true]

/-- Settles O49: the fetch refuses illegal states, and steps lead to legal ones. -/
theorem illegalStatesAreRefused : Obligations.IllegalStatesAreRefused := by
  refine ⟨fun s hp => ?_, fun s hp hc => ?_, fun s t h => ?_⟩
  · exact step_of_fetch_error (State.fetch_of_reserved hp)
  · exact step_of_fetch_error (State.fetch_of_counterOutOfRange hp hc)
  · obtain ⟨hp, -⟩ := step_next_legal h
    exact hp

/-! ## Reset values and outputs -/

/-- Settles O9, by evaluating the fixed reset state. -/
theorem resetStateHoldsTheStatedValues : Obligations.ResetStateHoldsTheStatedValues := by
  have hkey : ∀ (i : Nat) (h : i < 10), State.reset.keyr[i] = 0x00#8 := by decide
  exact ⟨rfl, rfl, rfl, rfl, rfl, rfl, rfl, rfl, rfl, hkey, rfl, rfl, rfl⟩

theorem State.busy_iff (s : State) : s.busy = true ↔ s.phase = .busy := decide_eq_true_iff

theorem State.done_iff (s : State) : s.done = true ↔ s.phase = .done := decide_eq_true_iff

theorem State.blockOut_of_done {s : State} (h : s.phase = .done) : s.blockOut = s.w.toPort := if_pos h

theorem State.blockOut_of_not_done {s : State} (h : s.phase ≠ .done) : s.blockOut = 0 := if_neg h

/-- Settles O10: one equation of each output. -/
theorem outputsAreFunctionsOfTheState : Obligations.OutputsAreFunctionsOfTheState :=
  fun s => ⟨s.busy_iff, s.done_iff, State.blockOut_of_done, State.blockOut_of_not_done⟩

end Sys2Proof.Machine
end

section
/-! PROOFS. The byte layout of blocks and keys (20_memory): each port is taken apart by the bits it holds,
and the words and the key registers are those bits. -/

namespace Sys2Proof.Machine

/-! ## Bytes beside each other -/

/-- The last byte of a port stands in its least significant bits (R56, R57). -/
theorem extractLsb'_zero_append_byte {n : Nat} (x : BitVec n) (c : Byte) : (x ++ c).extractLsb' 0 8 = c :=
  BitVec.extractLsb'_append_eq_right

/-- Past the last byte of a port come the bytes before it (R56, R57). -/
theorem extractLsb'_add_eight_append_byte {n : Nat} (x : BitVec n) (c : Byte) (start : Nat) :
    (x ++ c).extractLsb' (start + 8) 8 = x.extractLsb' start 8 := by
  rw [BitVec.extractLsb'_append_eq_of_le (Nat.le_add_left 8 start), Nat.add_sub_cancel]

/-- Two adjacent bytes of a port are a word, the upper byte high (R58). -/
theorem extractLsb'_sixteen (p : BitVec 64) (start : Nat) :
    p.extractLsb' start 16 = joinBytes (p.extractLsb' (start + 8) 8) (p.extractLsb' start 8) := by
  rw [joinBytes, BitVec.extractLsb'_append_extractLsb'_eq_extractLsb' rfl]

/-! ## The block -/

/-- The words of a port, put back beside each other, are the port (R57). -/
@[simp] theorem Words.toPort_ofPort (p : BitVec 64) : (Words.ofPort p).toPort = p := by
  have h12 : p.extractLsb' 48 16 ++ p.extractLsb' 32 16 = p.extractLsb' 32 32 :=
    BitVec.extractLsb'_append_extractLsb'_eq_extractLsb' rfl
  have h123 : p.extractLsb' 32 32 ++ p.extractLsb' 16 16 = p.extractLsb' 16 48 :=
    BitVec.extractLsb'_append_extractLsb'_eq_extractLsb' rfl
  have h1234 : p.extractLsb' 16 48 ++ p.extractLsb' 0 16 = p.extractLsb' 0 64 :=
    BitVec.extractLsb'_append_extractLsb'_eq_extractLsb' rfl
  rw [Words.toPort, Words.ofPort, h12, h123, h1234, BitVec.extractLsb'_eq_self]

/-- Byte `i` of the block is bits `63 - 8i : 56 - 8i` of its port (R57). -/
theorem extractLsb'_blockPortOfBytes (b : Vector Byte 8) {i : Nat} (h : i < 8) :
    (blockPortOfBytes b).extractLsb' (56 - 8 * i) 8 = b[i] := by
  rw [blockPortOfBytes]
  interval_cases i <;>
    simp [extractLsb'_zero_append_byte, extractLsb'_add_eight_append_byte]

/-- The port of eight bytes loads the words of the eight bytes (R55, R57). -/
@[simp] theorem Words.ofPort_blockPortOfBytes (b : Vector Byte 8) :
    Words.ofPort (blockPortOfBytes b) = Words.ofBytes b := by
  have hbyte (i : Nat) (h : i < 8) := extractLsb'_blockPortOfBytes b h
  simp only [Words.ofPort, Words.ofBytes, extractLsb'_sixteen, ← hbyte]

/-- The words of eight bytes show them on the port (R55, R57). -/
@[simp] theorem Words.toPort_ofBytes (b : Vector Byte 8) : (Words.ofBytes b).toPort = blockPortOfBytes b := by
  rw [← Words.ofPort_blockPortOfBytes, Words.toPort_ofPort]

/-- The words of eight bytes give them back (R55). -/
@[simp] theorem Words.toBytes_ofBytes (b : Vector Byte 8) : (Words.ofBytes b).toBytes = b := by
  ext i h
  simp only [Words.toBytes, Words.ofBytes, hiByte_joinBytes, loByte_joinBytes]
  interval_cases i <;> rfl

/-! ## The key -/

/-- Byte `i` of the key is bits `79 - 8i : 72 - 8i` of its port (R56). -/
theorem extractLsb'_keyPortOfBytes (k : KeyRegs) {i : Nat} (h : i < 10) :
    (keyPortOfBytes k).extractLsb' (72 - 8 * i) 8 = k[i] := by
  rw [keyPortOfBytes]
  interval_cases i <;>
    simp [extractLsb'_zero_append_byte, extractLsb'_add_eight_append_byte]

/-- Key register `i` is loaded from bits `79 - 8i : 72 - 8i` of the port (R56, R149). -/
theorem getElem_keyOfPort (p : BitVec 80) {i : Nat} (h : i < 10) :
    (keyOfPort p)[i] = p.extractLsb' (72 - 8 * i) 8 := by
  interval_cases i <;> rfl

/-- The key registers loaded from the port of ten bytes are the ten bytes (R56). -/
@[simp] theorem keyOfPort_keyPortOfBytes (k : KeyRegs) : keyOfPort (keyPortOfBytes k) = k := by
  ext1 i h
  rw [getElem_keyOfPort, extractLsb'_keyPortOfBytes]

/-- Settles O11: the layout of the block and that of the key, each by the bytes its port holds. -/
theorem byteLayoutOfKeysAndBlocks : Obligations.ByteLayoutOfKeysAndBlocks := by
  refine ⟨fun b => ⟨?_, ?_, ?_, ?_⟩, fun k => ⟨?_, ?_⟩⟩
  · exact Words.ofPort_blockPortOfBytes b
  · exact Words.toPort_ofBytes b
  · exact Words.toBytes_ofBytes b
  · exact fun _ => extractLsb'_blockPortOfBytes b
  · exact keyOfPort_keyPortOfBytes k
  · exact fun _ => extractLsb'_keyPortOfBytes k

end Sys2Proof.Machine
end

section
/-! PROOFS. Encodings (30_encoding): every format word is the word of one operation, the decoder and the
encoder undo each other, and the rows of the opcode table partition the words of each unit. -/

namespace Sys2Proof.Machine

/-! ## The words of each format, by their parts -/

/-- Every value of the command port is the `CMD` of some sample (R71, R72). -/
theorem Ports.exists_cmd_eq (cmd : BitVec 3) :
    ∃ rst start decrypt : Bool, Ports.cmd ⟨rst, start, decrypt, 0, 0⟩ = cmd := by
  have hbits : ∀ cmd : BitVec 3, BitVec.ofBool (cmd.getLsbD 2) ++ BitVec.ofBool (cmd.getLsbD 1)
      ++ BitVec.ofBool (cmd.getLsbD 0) = cmd := by decide
  exact ⟨cmd.getLsbD 2, cmd.getLsbD 1, cmd.getLsbD 0, hbits cmd⟩

/-- Every direction bit is that of a direction (R27, R77). -/
theorem Mode.exists_bit_eq (b : BitVec 1) : ∃ m : Mode, m.bit = b := by
  have hbit : ∀ b : BitVec 1, b = Mode.encrypt.bit ∨ b = Mode.decrypt.bit := by decide
  obtain h | h := hbit b <;> exact ⟨_, h.symm⟩

/-- Every schedule word is `MODE || K` (R74). -/
theorem exists_mode_append_eq (sw : BitVec 6) : ∃ (m : Mode) (k : BitVec 5), m.bit ++ k = sw := by
  obtain ⟨m, hm⟩ := Mode.exists_bit_eq (sw.extractLsb' 5 1)
  refine ⟨m, sw.extractLsb' 0 5, ?_⟩
  rw [hm]
  exact (BitVec.extractLsb'_append_extractLsb'_eq_extractLsb' rfl).trans BitVec.extractLsb'_eq_self

/-- A key selection word is its step number beside its stage number (R78). -/
theorem keySelect_append (ksel : BitVec 7) : ksel.extractLsb' 2 5 ++ ksel.extractLsb' 0 2 = ksel :=
  (BitVec.extractLsb'_append_extractLsb'_eq_extractLsb' rfl).trans BitVec.extractLsb'_eq_self

/-! ## The round operation of a schedule word -/

/-- The round operation of direction `m` and step number `k`, the one that has an encoding (R75). -/
def roundInstr (m : Mode) (k : BitVec 5) : Instr :=
  match m with
  | .encrypt => if groupLowBit k then .ruleB k else .ruleA k
  | .decrypt => if groupLowBit k then .ruleBInv k else .ruleAInv k

/-- The schedule table on the parts of the word (R75). -/
theorem decode_schedule_append (m : Mode) (k : BitVec 5) :
    decode (.schedule (m.bit ++ k)) = roundInstr m k := by
  revert k
  cases m <;> decide

/-- The round operation goes back to the word it is decoded from (R75). -/
theorem encode_roundInstr (m : Mode) (k : BitVec 5) : encode (roundInstr m k) = .schedule (m.bit ++ k) := by
  cases m <;> rw [roundInstr] <;> split <;> rfl

/-- The rule of a round operation is the one its step number admits (R75). -/
theorem roundInstr_wellFormed (m : Mode) (k : BitVec 5) : (roundInstr m k).wellFormed = true := by
  cases m <;> rw [roundInstr] <;> split <;> simp [Instr.wellFormed, *]

/-- Every well-formed operation of the sequencer is the round operation of a direction and a step number (R75). -/
theorem exists_roundInstr_eq {i : Instr} (hwf : i.wellFormed = true) (hunit : i.row.unit = .schedule) :
    ∃ m k, roundInstr m k = i := by
  cases i
  case ruleA k => exact ⟨.encrypt, k, if_neg (by simpa [Instr.wellFormed] using hwf)⟩
  case ruleB k => exact ⟨.encrypt, k, if_pos hwf⟩
  case ruleAInv k => exact ⟨.decrypt, k, if_neg (by simpa [Instr.wellFormed] using hwf)⟩
  case ruleBInv k => exact ⟨.decrypt, k, if_pos hwf⟩
  all_goals cases hunit

/-- The low bit of the group number is set in the rounds of rule B (R75). -/
theorem groupLowBit_iff_not_usesRuleA (k : BitVec 5) : groupLowBit k = true ↔ ¬UsesRuleA (roundOf k) := by
  revert k
  decide

/-! ## Decoding what was encoded -/

/-- The parts of a key selection word come back (R78). -/
theorem decode_keySchedule_append (k : BitVec 5) (j : BitVec 2) : decode (.keySchedule (k ++ j)) = .cv k j := by
  rw [decode, BitVec.extractLsb'_append_eq_left, BitVec.extractLsb'_append_eq_right]

/-- A round operation comes back (R75). -/
theorem decode_encode_of_schedule {i : Instr} (hwf : i.wellFormed = true) (hunit : i.row.unit = .schedule) :
    decode (encode i) = i := by
  obtain ⟨m, k, rfl⟩ := exists_roundInstr_eq hwf hunit
  rw [encode_roundInstr, decode_schedule_append]

/-- Settles O6, operation by operation: the commands by the port table, the rounds by the schedule table. -/
theorem decodeOfEncodeGivesTheOperation : Obligations.DecodeOfEncodeGivesTheOperation := by
  intro i hwf
  cases i with
  | reset start decrypt => exact decode_command_cmd ⟨true, start, decrypt, 0, 0⟩ 0 0
  | nop decrypt => cases decrypt <;> rfl
  | startEnc key block => exact decode_command_cmd ⟨false, true, false, 0, 0⟩ key block
  | startDec key block => exact decode_command_cmd ⟨false, true, true, 0, 0⟩ key block
  | ruleA k => exact decode_encode_of_schedule hwf rfl
  | ruleB k => exact decode_encode_of_schedule hwf rfl
  | ruleAInv k => exact decode_encode_of_schedule hwf rfl
  | ruleBInv k => exact decode_encode_of_schedule hwf rfl
  | g k w => rfl
  | gInv k w => rfl
  | gs l r kb => rfl
  | gsi l r kb => rfl
  | cv k j => exact decode_keySchedule_append k j
  | f a => rfl

/-! ## Encoding what was decoded -/

/-- What a command port shows comes back, whatever stands on the operand ports (R71, R72; log 3). -/
theorem encode_decode_command (cmd : BitVec 3) (key : BitVec 80) (block : BitVec 64) :
    (decode (.command cmd key block)).wellFormed = true
      ∧ ∃ key' block', encode (decode (.command cmd key block)) = .command cmd key' block' := by
  obtain ⟨rst, start, decrypt, rfl⟩ := Ports.exists_cmd_eq cmd
  rw [decode_command_cmd]
  cases rst with
  | true => exact ⟨rfl, 0, 0, rfl⟩
  | false =>
    cases start with
    | false => cases decrypt <;> exact ⟨rfl, 0, 0, rfl⟩
    | true => cases decrypt <;> exact ⟨rfl, key, block, rfl⟩

/-- Settles O7, unit by unit, on the parts of the word. -/
theorem everyWordOfEveryFormatDecodes : Obligations.EveryWordOfEveryFormatDecodes := by
  intro e
  cases e with
  | command cmd key block =>
    obtain ⟨hwf, key', block', h⟩ := encode_decode_command cmd key block
    rw [h]
    exact ⟨hwf, rfl, rfl⟩
  | schedule sw =>
    obtain ⟨m, k, rfl⟩ := exists_mode_append_eq sw
    rw [decode_schedule_append, encode_roundInstr]
    exact ⟨roundInstr_wellFormed m k, rfl, rfl⟩
  | gUnit gsel k w =>
    obtain ⟨m, rfl⟩ := Mode.exists_bit_eq gsel
    cases m <;> exact ⟨rfl, rfl, rfl⟩
  | gStage gsel l r kb =>
    obtain ⟨m, rfl⟩ := Mode.exists_bit_eq gsel
    cases m <;> exact ⟨rfl, rfl, rfl⟩
  | keySchedule ksel =>
    have hword : encode (decode (.keySchedule ksel)) = .keySchedule ksel :=
      congrArg Issue.keySchedule (keySelect_append ksel)
    rw [hword]
    exact ⟨rfl, rfl, rfl⟩
  | fTable a => exact ⟨rfl, rfl, rfl⟩

/-! ## The opcode table -/

/-- The encoding of a well-formed operation goes to its row's unit and selects its row (R84). -/
theorem selectsRow (i : Instr) : Laws.SelectsRow.Statement i :=
  match i with
  | .reset start decrypt => Laws.SelectsRow.reset start decrypt
  | .nop decrypt => Laws.SelectsRow.nop decrypt
  | .startEnc key block => Laws.SelectsRow.startEnc key block
  | .startDec key block => Laws.SelectsRow.startDec key block
  | .ruleA k => Laws.SelectsRow.ruleA k
  | .ruleB k => Laws.SelectsRow.ruleB k
  | .ruleAInv k => Laws.SelectsRow.ruleAInv k
  | .ruleBInv k => Laws.SelectsRow.ruleBInv k
  | .g k w => Laws.SelectsRow.g k w
  | .gInv k w => Laws.SelectsRow.gInv k w
  | .gs l r kb => Laws.SelectsRow.gs l r kb
  | .gsi l r kb => Laws.SelectsRow.gsi l r kb
  | .cv k j => Laws.SelectsRow.cv k j
  | .f a => Laws.SelectsRow.f a

/-- The operation a word decodes to has its row at the word's unit, and the word selects it (R84). -/
theorem row_decode_selects (e : Issue) : (decode e).row.unit = e.unit ∧ (decode e).row.selects e.word = true := by
  obtain ⟨hwf, hunit, hword⟩ := everyWordOfEveryFormatDecodes e
  obtain ⟨hrow, hsel⟩ := selectsRow (decode e) hwf
  exact ⟨hrow.symm.trans hunit, hword ▸ hsel⟩

/-- Every operation has its row in the table (R84). -/
theorem row_mem_opcodeTable (i : Instr) : i.row ∈ opcodeTable := by
  cases i <;> simp [opcodeTable, Instr.row]

/-- A word that selects two rows agrees with both patterns where both masks look (R84). -/
theorem OpcodeRow.patterns_agree_of_selects {row row' : OpcodeRow} {w : Nat} (h : row.selects w = true)
    (h' : row'.selects w = true) : row.pattern &&& row'.mask = row'.pattern &&& row.mask := by
  simp only [OpcodeRow.selects, Bool.and_eq_true, beq_iff_eq] at h h'
  rw [← h.2, ← h'.2, Nat.and_assoc, Nat.and_assoc, Nat.and_comm row.mask]

/-- No two rows of a unit have patterns that agree where both masks look (R84). -/
theorem opcodeTable_patterns_differ : ∀ row ∈ opcodeTable, ∀ row' ∈ opcodeTable, row.unit = row'.unit →
    row.pattern &&& row'.mask = row'.pattern &&& row.mask → row = row' := by decide

/-- Settles O8: the row of the decoded operation is selected, and two rows of a unit share no word. -/
theorem opcodeRowsAreDisjointAndCover : Obligations.OpcodeRowsAreDisjointAndCover := by
  refine ⟨fun e => ⟨row_mem_opcodeTable _, (row_decode_selects e).1⟩, fun e row hmem hunit => ?_⟩
  obtain ⟨hu, hsel⟩ := row_decode_selects e
  constructor
  · intro h
    exact opcodeTable_patterns_differ row hmem _ (row_mem_opcodeTable _) (hunit.trans hu.symm)
      (OpcodeRow.patterns_agree_of_selects h hsel)
  · rintro rfl
    exact hsel

/-! ## The tables of the spec -/

/-- Settles O2, by the bits of `CMD`. -/
theorem commandPortsDecodeByTheTable : Obligations.CommandPortsDecodeByTheTable := by
  intro p
  obtain ⟨hrst, hstart, hdecrypt⟩ := p.cmd_bits
  exact ⟨hrst, hstart, hdecrypt, decode_command_cmd p p.keyIn p.blockIn⟩

/-- The two rules of a direction on the ranges of doc00 (R75). -/
theorem roundInstr_eq (m : Mode) (k : BitVec 5) :
    roundInstr m k = match m with
      | .encrypt => if UsesRuleA (roundOf k) then .ruleA k else .ruleB k
      | .decrypt => if UsesRuleA (roundOf k) then .ruleAInv k else .ruleBInv k := by
  cases m <;> simp only [roundInstr, groupLowBit_iff_not_usesRuleA, ite_not]

/-- Settles O3: the rounds by the schedule table on the parts of the word, the masks on all 64 words. -/
theorem scheduleWordSelectsTheRule : Obligations.ScheduleWordSelectsTheRule := by
  refine ⟨fun r h1 h32 => ?_, by decide⟩
  have hr : roundOf (BitVec.ofNat 5 (r - 1)) = r := by
    rw [roundOf, BitVec.toNat_ofNat]
    omega
  have hround (m : Mode) := (decode_schedule_append m (BitVec.ofNat 5 (r - 1))).trans (roundInstr_eq m _)
  rw [hr] at hround
  exact ⟨hround .encrypt, hround .decrypt⟩

/-- Settles O4, direction by direction. -/
theorem directionBitSelectsGOrItsInverse : Obligations.DirectionBitSelectsGOrItsInverse := by
  intro m k w l r kb
  cases m <;> exact ⟨rfl, rfl⟩

/-- Settles O5, on the parts of the word. -/
theorem keySelectWordIsTheIndexModuloTen : Obligations.KeySelectWordIsTheIndexModuloTen := by
  intro ksel s
  have hword := keySelect_append ksel
  have hnum : ksel.toNat = 4 * (ksel.extractLsb' 2 5).toNat + (ksel.extractLsb' 0 2).toNat := by
    conv_lhs => rw [← hword, BitVec.toNat_append,
      ← Nat.shiftLeft_add_eq_or_of_lt (ksel.extractLsb' 0 2).isLt, Nat.shiftLeft_eq]
    omega
  refine ⟨_, _, rfl, hword, hnum, ?_⟩
  rw [decode, exec, execCv, keyByte_roundOf, ← hnum]
  rfl

end Sys2Proof.Machine
end

section
/-! PROOFS. What a legal state fetches (30_encoding R73, R74), and that an operation the model presents is
fetched next. -/

namespace Sys2Proof.Machine

/-- In a legal state the fetch hands out a round while it is in progress and not reset, else the command (R73). -/
theorem State.fetch_of_legal {s : State} (hl : s.Legal) :
    s.fetch = .ok (if s.sample.rst = false ∧ s.phase = .busy then .schedule s.scheduleWord
      else .command s.sample.cmd s.sample.keyIn s.sample.blockIn) := by
  obtain ⟨hp, hrange⟩ := hl
  rw [← s.counterInRange_iff] at hrange
  simp only [State.fetch, hp, hrange, if_false, reduceCtorEq]
  split <;> rfl

/-- The schedule word's `K` is the step number of the counter (R74). -/
theorem State.scheduleWord_of_legal {s : State} (hl : s.Legal) :
    s.scheduleWord = s.mode.bit ++ BitVec.ofNat 5 (s.ctr.toNat - 1) := by
  obtain ⟨-, hge, -⟩ := hl
  have hk : (s.ctr - 1).setWidth 5 = BitVec.ofNat 5 (s.ctr.toNat - 1) := by bv_omega
  rw [State.scheduleWord, hk]

/-- Settles O38, by the three branches of the statement. -/
theorem phaseFixesTheFormat : Obligations.PhaseFixesTheFormat := by
  intro s hl
  rw [State.fetch_of_legal hl, State.scheduleWord_of_legal hl]
  cases s.sample.rst <;> simp

/-! ## Presented operations -/

/-- A state that is made to look at commands fetches the sample it is driven with (R73; log 13). -/
theorem State.fetch_readyForCommand_drive (s : State) (p : Ports) :
    (s.readyForCommand.drive p).fetch = .ok (.command p.cmd p.keyIn p.blockIn) := by
  have hphase : s.readyForCommand.phase.acceptsStart = true := by
    simp only [State.readyForCommand]
    split <;> trivial
  have hctr : s.readyForCommand.counterInRange = true := by
    simp only [State.readyForCommand]
    split
    · assumption
    · rfl
  obtain ⟨hreserved, hbusy⟩ := (Phase.acceptsStart_iff _).mp hphase
  have hl : (s.readyForCommand.drive p).Legal := ⟨hreserved, (State.counterInRange_iff _).mp hctr⟩
  rw [State.fetch_of_legal hl, if_neg (fun h => hbusy h.2)]
  rfl

/-- A state that is made to perform a round fetches that round's word (R74; log 13). -/
theorem State.fetch_readyForRound (s : State) (m : Mode) (k : BitVec 5) :
    (s.readyForRound m k).fetch = .ok (.schedule (m.bit ++ k)) := by
  have hctr : (counterOf k).toNat = k.toNat + 1 := by
    rw [counterOf]
    bv_omega
  have hl : (s.readyForRound m k).Legal := by
    refine ⟨nofun, ?_⟩
    show 1 ≤ (counterOf k).toNat ∧ (counterOf k).toNat ≤ 32
    omega
  have hword : (s.readyForRound m k).scheduleWord = m.bit ++ k := by
    rw [State.scheduleWord_of_legal hl]
    show m.bit ++ BitVec.ofNat 5 ((counterOf k).toNat - 1) = m.bit ++ k
    rw [hctr, Nat.add_sub_cancel, BitVec.ofNat_toNat, BitVec.setWidth_eq]
  rw [State.fetch_of_legal hl, if_pos ⟨rfl, rfl⟩, hword]

/-- A round is presented through `MODE`, `PHASE` and `CTR` (log 13). -/
theorem State.present_roundInstr (s : State) (m : Mode) (k : BitVec 5) :
    s.present (roundInstr m k) = s.readyForRound m k := by
  cases m <;> rw [roundInstr] <;> split <;> rfl

/-- Settles O59: a command is driven on the ports, a round is reached through the control registers. -/
theorem presentedOperationIsFetchedNext : Obligations.PresentedOperationIsFetchedNext := by
  intro s i hwf hunit
  obtain hunit | hunit := hunit
  · have hcmd (p : Ports) := s.fetch_readyForCommand_drive p
    have hdecode (p : Ports) := decode_command_cmd p p.keyIn p.blockIn
    cases i
    case reset start decrypt => exact ⟨_, hcmd _, hdecode ⟨true, start, decrypt, 0, 0⟩⟩
    case nop decrypt => exact ⟨_, hcmd _, hdecode ⟨false, false, decrypt, 0, 0⟩⟩
    case startEnc key block => exact ⟨_, hcmd _, hdecode ⟨false, true, false, key, block⟩⟩
    case startDec key block => exact ⟨_, hcmd _, hdecode ⟨false, true, true, key, block⟩⟩
    all_goals cases hunit
  · obtain ⟨m, k, rfl⟩ := exists_roundInstr_eq hwf hunit
    rw [State.present_roundInstr]
    exact ⟨_, s.fetch_readyForRound m k, decode_schedule_append m k⟩

end Sys2Proof.Machine
end

section
/-! PROOFS. Operations in progress (44_driver R149 to R156): the rounds still to go, and the runs that
perform them. -/

namespace Sys2Proof.Machine

/-! ## Rounds on the words -/

/-- The round for counter `r` in direction `m` (R151, R152). -/
def roundWords (m : Mode) (keyr : KeyRegs) (r : Nat) (x : Words) : Words :=
  match m with
  | .encrypt => encryptRound keyr r x
  | .decrypt => decryptRound keyr r x

/-- The counter of the round after which `n` rounds are still to go (R25). -/
def Mode.counterLeaving (m : Mode) (n : Nat) : Nat :=
  match m with
  | .encrypt => 32 - n
  | .decrypt => n + 1

/-- The last `n` rounds of an operation in direction `m`, in order (R155, R156). -/
def lastRounds (m : Mode) (keyr : KeyRegs) : Nat → Words → Words
  | 0, x => x
  | n + 1, x => lastRounds m keyr n (roundWords m keyr (m.counterLeaving n) x)

/-- The last `n` rounds of an encryption end what the first ones began (R155). -/
theorem lastRounds_encryptRounds (keyr : KeyRegs) (x : Words) {n : Nat} (hn : n ≤ 32) :
    lastRounds .encrypt keyr n (encryptRounds keyr (32 - n) x) = encryptRounds keyr 32 x := by
  induction n with
  | zero => rfl
  | succ n ih =>
    have hround : roundWords .encrypt keyr (32 - n) (encryptRounds keyr (32 - (n + 1)) x)
        = encryptRounds keyr (32 - n) x := by
      rw [show 32 - n = 32 - (n + 1) + 1 by omega]
      rfl
    rw [lastRounds, Mode.counterLeaving, hround, ih (by omega)]

/-- All 32 rounds of an encryption (R155). -/
theorem lastRounds_encrypt (keyr : KeyRegs) (x : Words) :
    lastRounds .encrypt keyr 32 x = encryptRounds keyr 32 x :=
  lastRounds_encryptRounds keyr x le_rfl

/-- The last `n` rounds of a decryption are the rounds `n, ..., 1` (R156). -/
theorem lastRounds_decrypt (keyr : KeyRegs) (n : Nat) (x : Words) :
    lastRounds .decrypt keyr n x = decryptRounds keyr n x := by
  induction n generalizing x with
  | zero => rfl
  | succ n ih => exact ih _

/-! ## The steps of an operation -/

/-- A round operation performs the round of its counter on the words (R125, R151, R152). -/
theorem exec_roundInstr (m : Mode) (k : BitVec 5) (s : State) :
    exec (roundInstr m k) s = .next (s.writeWords (roundWords m s.keyr (roundOf k) s.w)) := by
  cases m <;> simp only [roundInstr_eq, roundWords, encryptRound, decryptRound] <;> split <;> rfl

/-- The step of a round in progress (R151, R152). -/
theorem step_of_busy {s : State} (hl : s.Legal) (hb : s.phase = .busy) (hrst : s.sample.rst = false) :
    step s = .next (s.writeWords (roundWords s.mode s.keyr s.ctr.toNat s.w)).advanceCounter.endStep := by
  have hfetch : s.fetch = .ok (.schedule s.scheduleWord) := by
    rw [State.fetch_of_legal hl, if_pos ⟨hrst, hb⟩]
  have hk : roundOf (BitVec.ofNat 5 (s.ctr.toNat - 1)) = s.ctr.toNat := by
    obtain ⟨-, hge, hle⟩ := hl
    rw [roundOf, BitVec.toNat_ofNat]
    omega
  have hexec : exec (decode (.schedule s.scheduleWord)) s
      = .next (s.writeWords (roundWords s.mode s.keyr s.ctr.toNat s.w)) := by
    rw [State.scheduleWord_of_legal hl, decode_schedule_append, exec_roundInstr, hk]
  exact step_of_fetch_of_exec hfetch hexec

/-- The step of a command in IDLE or DONE (R73, R146). -/
theorem step_of_not_busy {s t : State} (hl : s.Legal) (hb : s.phase ≠ .busy)
    (hexec : exec (decode (.command s.sample.cmd s.sample.keyIn s.sample.blockIn)) s = .next t) :
    step s = .next t.endStep := by
  have hfetch : s.fetch = .ok (.command s.sample.cmd s.sample.keyIn s.sample.blockIn) := by
    rw [State.fetch_of_legal hl, if_neg (fun h => hb h.2)]
  exact step_of_fetch_of_exec hfetch hexec

/-- A step without reset or start in IDLE or DONE (R147). -/
theorem step_of_nop {s : State} (hl : s.Legal) (hb : s.phase ≠ .busy) (hrst : s.sample.rst = false)
    (hstart : s.sample.start = false) : step s = .next s.endStep := by
  refine step_of_not_busy hl hb ?_
  rw [decode_command_cmd, hrst, hstart]
  rfl

/-- The direction a start selects (R71). -/
def Ports.startMode (p : Ports) : Mode :=
  match p.decrypt with
  | false => .encrypt
  | true => .decrypt

/-- The counter of the first round of a direction (R149, R150). -/
def Mode.firstCounter : Mode → BitVec 6
  | .encrypt => 1
  | .decrypt => 32

/-- The words of the whole operation a start selects: 32 rounds on its block with its key (R155, R156). -/
def Ports.operation (p : Ports) : Words :=
  lastRounds p.startMode (keyOfPort p.keyIn) 32 (Words.ofPort p.blockIn)

/-- The registers after an accepted start of the operation on the ports (R149, R150). -/
def State.started (s : State) (p : Ports) : State :=
  (s.loadOperands p.keyIn p.blockIn).setControl p.startMode p.startMode.firstCounter .busy

/-- A step with a start in IDLE or DONE (R149, R150). -/
theorem step_of_start {s : State} (hl : s.Legal) (hb : s.phase ≠ .busy) (hrst : s.sample.rst = false)
    (hstart : s.sample.start = true) : step s = .next (s.started s.sample).endStep := by
  refine step_of_not_busy hl hb ?_
  rw [decode_command_cmd, hrst, hstart, State.started, Ports.startMode]
  cases s.sample.decrypt <;>
    exact congrArg Host.Outcome.next (State.startWith_of_legal hl hb _ _ _ _)

/-! ## Rounds to go -/

/-- The state has `n` rounds to go in direction `m` with key `keyr`, and they lead to the words `y`; with none
to go, it is in DONE and holds `y`. -/
inductive State.Toward (m : Mode) (keyr : KeyRegs) (y : Words) : Nat → State → Prop
  /-- The operation has completed (R153). -/
  | done {s : State} (hphase : s.phase = .done) (hmode : s.mode = m) (hkeyr : s.keyr = keyr) (hw : s.w = y) :
      State.Toward m keyr y 0 s
  /-- The operation is in progress (R151, R152). -/
  | busy {s : State} {n : Nat} (hl : s.Legal) (hphase : s.phase = .busy) (hmode : s.mode = m)
      (hkeyr : s.keyr = keyr) (hctr : s.ctr.toNat = m.counterLeaving n)
      (hw : lastRounds m keyr (n + 1) s.w = y) : State.Toward m keyr y (n + 1) s

section
variable {m : Mode} {keyr : KeyRegs} {y : Words} {n : Nat} {s : State}

/-- What the host plans does not matter to the rounds to go. -/
theorem State.Toward.withHost (h : State.Toward m keyr y n s) (host : List Ports) :
    State.Toward m keyr y n { s with host := host } := by
  cases h with
  | done hphase hmode hkeyr hw => exact .done hphase hmode hkeyr hw
  | busy hl hphase hmode hkeyr hctr hw => exact .busy hl hphase hmode hkeyr hctr hw

/-- An operation is done when it has no round to go (R30). -/
theorem State.Toward.done_eq (h : State.Toward m keyr y n s) : s.done = decide (n = 0) := by
  cases h with
  | done hphase => exact decide_eq_true hphase
  | busy _ hphase => exact decide_eq_false (by simp [hphase])

/-- The counter advance of the round that leaves `n`: it ends the operation, or counts on (R25, R153). -/
theorem State.advanceCounter_of_counterLeaving (hl : s.Legal) (hctr : s.ctr.toNat = s.mode.counterLeaving n) :
    (n = 0 ∧ s.advanceCounter.phase = .done)
      ∨ ∃ j, n = j + 1 ∧ s.advanceCounter.phase = s.phase
        ∧ s.advanceCounter.ctr.toNat = s.mode.counterLeaving j := by
  obtain ⟨-, hge, -⟩ := id hl
  cases hm : s.mode with
  | encrypt =>
    rw [hm, Mode.counterLeaving] at hctr
    obtain ⟨hlt, hc, hp⟩ | ⟨heq, -, hp⟩ := State.advanceCounter_of_encrypt hl hm
    · exact .inr ⟨n - 1, by omega, hp, by rw [Mode.counterLeaving]; omega⟩
    · exact .inl ⟨by omega, hp⟩
  | decrypt =>
    rw [hm, Mode.counterLeaving] at hctr
    obtain ⟨hlt, hc, hp⟩ | ⟨heq, -, hp⟩ := State.advanceCounter_of_decrypt hl hm
    · exact .inr ⟨n - 1, by omega, hp, by rw [Mode.counterLeaving]; omega⟩
    · exact .inl ⟨by omega, hp⟩

/-- The end of the round that leaves `n` rounds to go (R151, R152). -/
theorem State.Toward.advanceCounter (hl : s.Legal) (hphase : s.phase = .busy) (hmode : s.mode = m)
    (hkeyr : s.keyr = keyr) (hctr : s.ctr.toNat = m.counterLeaving n) (hw : lastRounds m keyr n s.w = y) :
    State.Toward m keyr y n s.advanceCounter.endStep := by
  subst hmode hkeyr
  have hmode : s.advanceCounter.endStep.mode = s.mode := s.advanceCounter_mode
  have hkeyr : s.advanceCounter.endStep.keyr = s.keyr := s.advanceCounter_keyr
  have hwords : s.advanceCounter.endStep.w = s.w := s.advanceCounter_w
  obtain ⟨rfl, hp⟩ | ⟨j, rfl, hp, hc⟩ := State.advanceCounter_of_counterLeaving hl hctr
  · exact .done hp hmode hkeyr (hwords.trans hw)
  · exact .busy (State.advanceCounter_legal hl) (hp.trans hphase) hmode hkeyr hc (hwords ▸ hw)

/-- A step without reset performs one of the rounds to go (R151, R152). -/
theorem State.Toward.step (h : State.Toward m keyr y (n + 1) s) (hrst : s.sample.rst = false) :
    ∃ t, step s = .next t ∧ State.Toward m keyr y n t := by
  cases h with
  | busy hl hphase hmode hkeyr hctr hw =>
    refine ⟨_, step_of_busy hl hphase hrst, .advanceCounter hl hphase hmode hkeyr hctr ?_⟩
    rw [State.writeWords_w, hmode, hkeyr, hctr]
    exact hw

end

/-- A start has all 32 rounds to go, towards the operation on the key and the block of the ports (R149, R150). -/
theorem State.Toward.started (s : State) (p : Ports) :
    State.Toward p.startMode (keyOfPort p.keyIn) p.operation 32 (s.started p).endStep := by
  have hctr : ∀ m : Mode, m.firstCounter.toNat = m.counterLeaving 31 := by rintro (_ | _) <;> rfl
  have hrange : 1 ≤ p.startMode.firstCounter.toNat ∧ p.startMode.firstCounter.toNat ≤ 32 := by
    cases p.startMode <;> decide
  exact .busy ⟨nofun, hrange⟩ rfl rfl rfl (hctr _) rfl

/-- How many rounds a state in BUSY has to go, the one of its counter included (R83, R151, R152). -/
def State.roundsToGo (s : State) : Nat :=
  match s.mode with
  | .encrypt => 33 - s.ctr.toNat
  | .decrypt => s.ctr.toNat

/-- A legal state in BUSY is on the way to the end of its operation. -/
theorem State.toward_of_busy {s : State} (hl : s.Legal) (hb : s.phase = .busy) :
    ∃ n y, s.roundsToGo = n + 1 ∧ State.Toward s.mode s.keyr y (n + 1) s := by
  obtain ⟨-, hge, hle⟩ := id hl
  have hctr : s.roundsToGo = s.roundsToGo - 1 + 1
      ∧ s.ctr.toNat = s.mode.counterLeaving (s.roundsToGo - 1) := by
    rw [State.roundsToGo]
    cases s.mode <;> simp only [Mode.counterLeaving] <;> omega
  exact ⟨_, _, hctr.1, .busy hl hb rfl rfl hctr.2 rfl⟩

/-! ## Runs -/

/-- What each step of a run does when the ports are as it needs them, the run does. -/
theorem core_run_of_step {P : Nat → State → Prop} {Ok : Ports → Prop} (hidle : Ok Ports.idle)
    (hstep : ∀ n s, P (n + 1) s → Ok s.sample → ∃ t, step s = .next t ∧ P n t) {i : Nat} (n : Nat) {s : State}
    (h : P (i + n) s) (hok : ∀ q ∈ s.host.take n, Ok q) :
    ∃ t, Sys2Proof.core.run n s = .next t ∧ P i t ∧ t.host = s.host.drop n := by
  induction n generalizing s with
  | zero => exact ⟨s, rfl, h, rfl⟩
  | succ n ih =>
    have hsample : Ok s.sample ∧ ∀ q ∈ s.host.tail.take n, Ok q := by
      unfold State.sample
      cases hhost : s.host with
      | nil => simpa using hidle
      | cons p rest => simpa [hhost] using hok
    obtain ⟨u, hu, hP⟩ := hstep _ s h hsample.1
    have hhost : u.host = s.host.tail := (step_next_host hu).1
    obtain ⟨t, ht, hQ, hrest⟩ := ih hP (hhost ▸ hsample.2)
    refine ⟨t, (core_run_succ hu n).trans ht, hQ, ?_⟩
    rw [hrest, hhost, List.drop_tail]

/-- Without reset a run performs the rounds to go, one a step (R151, R152). -/
theorem State.Toward.run {m : Mode} {keyr : KeyRegs} {y : Words} {i n : Nat} {s : State}
    (h : State.Toward m keyr y (i + n) s) (hrst : ∀ q ∈ s.host.take n, q.rst = false) :
    ∃ t, Sys2Proof.core.run n s = .next t ∧ State.Toward m keyr y i t ∧ t.host = s.host.drop n :=
  core_run_of_step (P := State.Toward m keyr y) (Ok := fun q => q.rst = false) rfl
    (fun _ _ => State.Toward.step) n h hrst

/-- A start accepted in IDLE or DONE and further steps without reset, at most 32 of them (R149, R150, R160). -/
theorem core_run_of_start {s : State} {p : Ports} {rest : List Ports} (hl : s.Legal) (hb : s.phase ≠ .busy)
    (hhost : s.host = p :: rest) (hrst : p.rst = false) (hstart : p.start = true) {i n : Nat} (hn : i + n = 32)
    (hrest : ∀ q ∈ rest.take n, q.rst = false) :
    ∃ t, Sys2Proof.core.run (n + 1) s = .next t
      ∧ State.Toward p.startMode (keyOfPort p.keyIn) p.operation i t ∧ t.host = rest.drop n := by
  obtain rfl : s.sample = p := State.sample_of_host hhost
  have hleft : (s.started s.sample).endStep.host = rest := congrArg List.tail hhost
  have htoward := hn ▸ State.Toward.started s s.sample
  rw [core_run_succ (step_of_start hl hb hrst hstart), ← hleft]
  exact htoward.run (hleft ▸ hrest)

end Sys2Proof.Machine
end

section
/-! PROOFS. Host programs (30_encoding R83): what `WAIT_DONE` expands to, and that a program driven where it
was expanded reads the result of its operation. -/

namespace Sys2Proof.Machine

/-! ## `NOP` lines -/

/-- The first lines of a longer wait neither reset nor start (R82, R83). -/
theorem rst_start_of_mem_take_linesNop {m n : Nat} {rest : List Ports} :
    ∀ q ∈ (linesNop (m + n) ++ rest).take m, q.rst = false ∧ q.start = false := by
  intro q hq
  have hmem : q ∈ linesNop m := by
    rwa [linesNop, List.replicate_add, List.append_assoc, List.take_left' List.length_replicate] at hq
  rw [List.eq_of_mem_replicate hmem]
  exact ⟨rfl, rfl⟩

/-- The lines left of a longer wait (R83). -/
theorem drop_linesNop_append (m n : Nat) (rest : List Ports) :
    (linesNop (m + n) ++ rest).drop m = linesNop n ++ rest := by
  rw [linesNop, List.replicate_add, List.append_assoc, List.drop_left' List.length_replicate]
  rfl

/-- One `NOP` in IDLE or DONE writes no register (R147). -/
theorem step_drive_idle {s : State} (hl : s.Legal) (hb : s.phase ≠ .busy) :
    step (s.drive Ports.idle) = .next (s.drive Ports.idle).endStep :=
  step_of_nop hl hb rfl rfl

/-! ## `WAIT_DONE` in each phase -/

/-- While an operation has rounds to go, `WAIT_DONE` is one `NOP` for each (R83, R214). -/
theorem State.Toward.waitDoneWithin {m : Mode} {keyr : KeyRegs} {y : Words} {n limit : Nat} {s : State}
    (h : State.Toward m keyr y (n + 1) s) (hn : n < limit) :
    State.waitDoneWithin limit s = some (linesNop (n + 1)) := by
  induction limit generalizing n s with
  | zero => exact absurd hn n.not_lt_zero
  | succ limit ih =>
    obtain ⟨t, ht, htoward⟩ := (h.withHost (Ports.idle :: s.host)).step rfl
    rw [State.waitDoneWithin_succ ht, htoward.done_eq]
    cases n with
    | zero => rfl
    | succ n =>
      rw [ih htoward (by omega)]
      rfl

/-- In DONE the first `NOP` ends the wait (R83). -/
theorem State.waitDone_of_done {s : State} (hl : s.Legal) (hp : s.phase = .done) :
    s.waitDone = some (linesNop 1) := by
  have hstep := step_drive_idle hl (by simp [hp])
  have hdone : (s.drive Ports.idle).endStep.done = true := (State.done_iff _).mpr hp
  rw [State.waitDone, State.waitDoneWithin_succ hstep, if_pos hdone]
  rfl

/-- In IDLE no `NOP` ends the wait (R83; log 17). -/
theorem State.waitDoneWithin_of_idle {s : State} (hl : s.Legal) (hp : s.phase = .idle) (limit : Nat) :
    State.waitDoneWithin limit s = none := by
  induction limit generalizing s with
  | zero => rfl
  | succ limit ih =>
    have hstep := step_drive_idle hl (by simp [hp])
    have hdone : ¬(s.drive Ports.idle).endStep.done = true := by simp [State.done_iff, hp]
    rw [State.waitDoneWithin_succ hstep, if_neg hdone, ih (s := (s.drive Ports.idle).endStep) hl hp]
    rfl

/-- In BUSY, one `NOP` for each round to go (R83, R214). -/
theorem State.waitDone_of_busy {s : State} (hl : s.Legal) (hb : s.phase = .busy) :
    s.waitDone = some (linesNop s.roundsToGo) := by
  obtain ⟨n, y, hn, htoward⟩ := State.toward_of_busy hl hb
  have hlimit : n < 32 := by
    obtain ⟨-, hge, hle⟩ := hl
    rw [State.roundsToGo] at hn
    split at hn <;> omega
  rw [hn]
  exact htoward.waitDoneWithin hlimit

/-! ## Driving the lines -/

/-- `NOP` lines drive an operation through as many of its rounds (R151, R152, R154). -/
theorem State.Toward.run_linesNop {m : Mode} {keyr : KeyRegs} {y : Words} {i n : Nat} {s : State}
    (h : State.Toward m keyr y (i + n) s) (rest : List Ports) :
    ∃ t, Sys2Proof.core.run n { s with host := linesNop (n + i) ++ rest } = .next t
      ∧ State.Toward m keyr y i t ∧ t.host = linesNop i ++ rest := by
  rw [← drop_linesNop_append n i rest]
  exact (h.withHost (linesNop (n + i) ++ rest)).run fun q hq => (rst_start_of_mem_take_linesNop q hq).1

/-- `NOP` lines leave an engine in IDLE as it is, however many (R147). -/
theorem core_run_linesNop_of_idle {s : State} (hl : s.Legal) (hp : s.phase = .idle) (n : Nat) (rest : List Ports) :
    ∃ t, Sys2Proof.core.run n { s with host := linesNop n ++ rest } = .next t ∧ t.done = false := by
  obtain ⟨t, ht, ⟨-, hphase⟩, -⟩ := core_run_of_step (i := 0)
    (P := fun _ u => u.Legal ∧ u.phase = .idle) (Ok := fun q => q.rst = false ∧ q.start = false) ⟨rfl, rfl⟩
    (fun _ u hu hq => ⟨u.endStep, step_of_nop hu.1 (by simp [hu.2]) hq.1 hq.2, hu⟩) n
    (s := { s with host := linesNop n ++ rest }) ⟨hl, hp⟩ (rst_start_of_mem_take_linesNop (n := 0))
  exact ⟨t, ht, by simp [State.done, hphase]⟩

/-- The lines of a wait lead to DONE after the last of them and not before, and leave the host's later lines. -/
def State.WaitEndsAfter (s : State) (n : Nat) (rest : List Ports) : Prop :=
  (∃ t, Sys2Proof.core.run n { s with host := linesNop n ++ rest } = .next t ∧ t.done = true ∧ t.host = rest)
    ∧ ∀ m, 1 ≤ m → m < n →
      ∃ t, Sys2Proof.core.run m { s with host := linesNop n ++ rest } = .next t ∧ t.done = false

/-- An operation's wait ends with its last round (R153). -/
theorem State.Toward.waitEndsAfter {m : Mode} {keyr : KeyRegs} {y : Words} {n : Nat} {s : State}
    (h : State.Toward m keyr y n s) (rest : List Ports) : s.WaitEndsAfter n rest := by
  constructor
  · obtain ⟨t, ht, htoward, hrest⟩ := State.Toward.run_linesNop (i := 0) (n.zero_add.symm ▸ h) rest
    exact ⟨t, ht, htoward.done_eq, hrest⟩
  · intro k _ hk
    obtain ⟨i, rfl⟩ := Nat.exists_eq_add_of_lt hk
    obtain ⟨t, ht, htoward, -⟩ := State.Toward.run_linesNop (i := i + 1) (n := k)
      (by rwa [Nat.add_comm, ← Nat.add_assoc]) rest
    exact ⟨t, ht, htoward.done_eq⟩

/-- In DONE the wait ends with its only line (R147). -/
theorem State.waitEndsAfter_of_done {s : State} (hl : s.Legal) (hp : s.phase = .done) (rest : List Ports) :
    s.WaitEndsAfter 1 rest := by
  have hrun : Sys2Proof.core.run 1 { s with host := linesNop 1 ++ rest } = _ :=
    core_run_succ (step_of_nop (s := { s with host := linesNop 1 ++ rest }) hl (by simp [hp]) rfl rfl) 0
  exact ⟨⟨_, hrun, (State.done_iff _).mpr hp, rfl⟩, by omega⟩

/-- Settles O60, phase by phase. -/
theorem waitDoneIsNopUntilDone : Obligations.WaitDoneIsNopUntilDone := by
  intro s rest hl
  refine ⟨State.waitDone_of_done hl, fun hb hm => ?_, fun hb hm => ?_, fun hp => ⟨?_, fun n => ?_⟩,
    fun lines hlines => ?_⟩
  · simpa only [State.roundsToGo, hm] using State.waitDone_of_busy hl hb
  · simpa only [State.roundsToGo, hm] using State.waitDone_of_busy hl hb
  · exact State.waitDoneWithin_of_idle hl hp _
  · exact core_run_linesNop_of_idle hl hp n rest
  · suffices h : ∃ n, 1 ≤ n ∧ lines = linesNop n ∧ s.WaitEndsAfter n rest by
      obtain ⟨n, hn, rfl, hends⟩ := h
      exact ⟨n, hn, rfl, hends⟩
    cases hp : s.phase with
    | idle => simp [State.waitDone, State.waitDoneWithin_of_idle hl hp] at hlines
    | busy =>
      obtain ⟨n, y, hn, htoward⟩ := State.toward_of_busy hl hp
      rw [State.waitDone_of_busy hl hp, hn, Option.some.injEq] at hlines
      exact ⟨n + 1, by omega, hlines.symm, htoward.waitEndsAfter rest⟩
    | done =>
      rw [State.waitDone_of_done hl hp, Option.some.injEq] at hlines
      exact ⟨1, le_rfl, hlines.symm, State.waitEndsAfter_of_done hl hp rest⟩
    | reserved => exact absurd hp hl.1

/-! ## `encrypt_block` and `decrypt_block` -/

/-- What `READ` gives while an operation is on its way (R83, R190). -/
theorem State.Toward.read_eq {m : Mode} {keyr : KeyRegs} {y : Words} {n : Nat} {s : State}
    (h : State.Toward m keyr y n s) : s.read = if n = 0 then some y.toPort else none := by
  rw [State.read, h.done_eq]
  cases h with
  | done hphase _ _ hw => simp [State.blockOut_of_done hphase, hw]
  | busy => rfl

/-- A start and its wait, in IDLE or DONE (R83, R214). -/
theorem State.startAndWait_eq {s : State} {p : Ports} (hl : s.Legal) (hb : s.phase ≠ .busy) (hrst : p.rst = false)
    (hstart : p.start = true) : s.startAndWait p = some (p :: linesNop 32) := by
  have hwait : ((s.drive p).started p).endStep.waitDone = some (linesNop 32) :=
    (State.Toward.started (s.drive p) p).waitDoneWithin (by decide)
  rw [State.startAndWait_of_step (step_of_start hl hb hrst hstart), State.sample_drive, hwait]
  rfl

/-- A start and its wait, driven in IDLE or DONE, read the result; one `NOP` fewer reads nothing (R83, R212). -/
theorem core_run_startAndWait {s : State} {p : Ports} (hl : s.Legal) (hb : s.phase ≠ .busy) (hrst : p.rst = false)
    (hstart : p.start = true) (rest : List Ports) :
    (∃ t, Sys2Proof.core.run 33 { s with host := (p :: linesNop 32) ++ rest } = .next t
        ∧ t.read = some p.operation.toPort ∧ t.host = rest)
      ∧ ∃ t, Sys2Proof.core.run 32 { s with host := (p :: linesNop 32) ++ rest } = .next t ∧ t.read = none := by
  have hrun (i n : Nat) (hn : n + i = 32) := core_run_of_start (s := { s with host := (p :: linesNop 32) ++ rest })
    hl hb rfl hrst hstart ((i.add_comm n).trans hn)
    fun q hq => (rst_start_of_mem_take_linesNop (n := i) q (hn ▸ hq)).1
  constructor
  · obtain ⟨t, ht, htoward, hrest⟩ := hrun 0 32 rfl
    exact ⟨t, ht, htoward.read_eq, hrest.trans (drop_linesNop_append 32 0 rest)⟩
  · obtain ⟨t, ht, htoward, -⟩ := hrun 1 31 rfl
    exact ⟨t, ht, htoward.read_eq⟩

/-- The words of eight bytes of words are the words (R55). -/
@[simp] theorem Words.ofBytes_toBytes (x : Words) : Words.ofBytes x.toBytes = x := by
  ext1 <;> exact joinBytes_hiByte_loByte _

/-- The port of the bytes of words is the port of the words (R55, R57). -/
@[simp] theorem blockPortOfBytes_toBytes (x : Words) : blockPortOfBytes x.toBytes = x.toPort := by
  rw [← Words.toPort_ofBytes, Words.ofBytes_toBytes]

/-- The operation on ports that show a key and a block: 32 rounds on their bytes (R55, R56). -/
theorem Ports.operation_eq {p : Ports} {k : KeyRegs} {b : Vector Byte 8} (hkey : p.keyIn = keyPortOfBytes k)
    (hblock : p.blockIn = blockPortOfBytes b) : p.operation = lastRounds p.startMode k 32 (Words.ofBytes b) := by
  rw [Ports.operation, hkey, hblock, keyOfPort_keyPortOfBytes, Words.ofPort_blockPortOfBytes]

/-- The operation of `START_ENC` is `ENCRYPT_BLOCK` (R155). -/
theorem Ports.operation_of_encrypt {p : Ports} {k : KeyRegs} {b : Vector Byte 8} (hdecrypt : p.decrypt = false)
    (hkey : p.keyIn = keyPortOfBytes k) (hblock : p.blockIn = blockPortOfBytes b) :
    p.operation.toPort = blockPortOfBytes (encryptBlock k b) := by
  rw [Ports.operation_eq hkey hblock, Ports.startMode, hdecrypt, lastRounds_encrypt, encryptBlock,
    blockPortOfBytes_toBytes]

/-- The operation of `START_DEC` is `DECRYPT_BLOCK` (R156). -/
theorem Ports.operation_of_decrypt {p : Ports} {k : KeyRegs} {b : Vector Byte 8} (hdecrypt : p.decrypt = true)
    (hkey : p.keyIn = keyPortOfBytes k) (hblock : p.blockIn = blockPortOfBytes b) :
    p.operation.toPort = blockPortOfBytes (decryptBlock k b) := by
  rw [Ports.operation_eq hkey hblock, Ports.startMode, hdecrypt, lastRounds_decrypt, decryptBlock,
    blockPortOfBytes_toBytes]

/-- Settles O58: each program is a start and its wait, and reads the words of the start's operation. -/
theorem hostProgramsReadTheResult : Obligations.HostProgramsReadTheResult := by
  intro s k b rest hl hp key block
  have hb : s.phase ≠ .busy := by
    obtain hp | hp := hp <;> simp [hp]
  constructor
  · refine ⟨_, State.startAndWait_eq hl hb rfl rfl, rfl, ?_⟩
    rw [← Ports.operation_of_encrypt (p := lineStartEnc key block) rfl rfl rfl]
    exact core_run_startAndWait hl hb rfl rfl rest
  · refine ⟨_, State.startAndWait_eq hl hb rfl rfl, rfl, ?_⟩
    rw [← Ports.operation_of_decrypt (p := lineStartDec key block) rfl rfl rfl]
    exact core_run_startAndWait hl hb rfl rfl rest

end Sys2Proof.Machine
end

section
/-! PROOFS. The F-table (40_ftable) and the frame of the sub-operations. The ROM is tied once to R91's listing
of it, sixteen bytes a row; what is said of all 256 entries is then checked on the listing. -/

namespace Sys2Proof.Machine

/-! ## The ROM and its listing -/

/-- The byte at an address of a table listed sixteen bytes a row, in address order (R91). -/
def listedByte (rows : List (BitVec 128)) (a : Byte) : Byte :=
  (rows.getD (a.toNat / 16) 0).extractLsb' (120 - 8 * (a.toNat % 16)) 8

/-- R91's listing of the ROM. -/
def fListing : List (BitVec 128) :=
  [0xa3d70983f848f6f4b321157899b1aff9, 0xe72d4d8ace4cca2e5295d91e4e384428,
    0x0adf02a017f1606812b77ac3e9fa3d53, 0x96846bbaf2639a197caee5f5f7166aa2,
    0x39b67b0fc193811beeb41aead0912fb8, 0x55b9da853f41bfe05a58805f660bd890,
    0x35d5c0a733066569450094566d989b76, 0x97fcb2c2b0fedb20e1ebd6e4dd474a1d,
    0x42ed9e6e493ccd4327d207d4dec76718, 0x89cb301f8dc68faac874dcc95d5c31a4,
    0x7088612c9f0d2b8750825464267d0340, 0x344b1c73d1c4fd3bccfb7fabe63e5ba5,
    0xad04239c145122f02979717eff8c0ee2, 0x0cefbc72756f37a1ecd38e628b8610e8,
    0x087711be924f24c532369dcff3a6bbac, 0x5e6ca9135725b5e3bda83a0105592a46]

/-- The address of every byte in the ROM, listed the same way: the witness that each of them stands in it. -/
def fAddressListing : List (BitVec 128) :=
  [0x69fb22aec1fc658ae002205dd0a5ce43, 0xdee228f3c40a3d248f374a47b27f1b93,
    0x7709c6c2e6f5ac881fc8fea6a311174e, 0x929ee864b060e9d61d40fab7852ebd54,
    0xaf5580871e68ff7d05847eb115121ce5, 0xa8c5182faa506bf459fd58be9d9cf05b,
    0x26a2db35ab665c8e27673e32f16c83d5, 0xa0cad3b399d46fe10bc92a4238adcbba,
    0x5a46a9033153dda7a19013dccd94da96, 0x5f4de4456a1930706d0c366ec3ea82a4,
    0x23d73f009fbfed63f9f297bbefc0390e, 0x740d720849f641294f5133eed2f8e356,
    0x6244732bb5e7958d989b1691b88614eb, 0x4cb489d98b617a015e1a52769a7c8c21,
    0x5778cff77b3abc10df2c4b79d88148d1, 0xc72534ec073b063c040f2db971b675cc]

theorem fLookup_eq_listedByte (a : Byte) : fLookup a = listedByte fListing a := by
  have hrom : ∀ a : Byte, fRom[a.toNat]? = some (listedByte fListing a) := by decide
  exact (List.getElem?_eq_some_iff.mp (hrom a)).2

/-- Settles O13: the listing of the statement is `fListing`. -/
theorem fTableIsTheListingOfTheSpec : Obligations.FTableIsTheListingOfTheSpec := fLookup_eq_listedByte

/-! ## The permutation -/

theorem fLookup_listedByte_fAddressListing : ∀ b : Byte, fLookup (listedByte fAddressListing b) = b := by
  simp only [fLookup_eq_listedByte]
  decide

theorem fLookup_surjective : Function.Surjective fLookup :=
  fun b => ⟨_, fLookup_listedByte_fAddressListing b⟩

theorem fLookup_injective : Function.Injective fLookup :=
  Finite.injective_iff_surjective.mpr fLookup_surjective

theorem fLookup_ne_self : ∀ a : Byte, fLookup a ≠ a := by
  simp only [fLookup_eq_listedByte]
  decide

theorem fLookup_fLookup_eq_self_iff : ∀ a : Byte, fLookup (fLookup a) = a ↔ a = 0x9f ∨ a = 0xa4 := by
  simp only [fLookup_eq_listedByte]
  decide

/-- Settles O14: a map of the bytes onto the bytes is a permutation of them. -/
theorem fTableIsAPermutation : Obligations.FTableIsAPermutation :=
  ⟨fun _ _ h => fLookup_injective h, fLookup_surjective, fLookup_ne_self, fLookup_fLookup_eq_self_iff⟩

/-! ## The operation `F` -/

/-- Settles O12: `F` puts the entry on the wires, and the corner entries are read off the ROM. -/
theorem fAnswersTheTableEntry : Obligations.FAnswersTheTableEntry := by
  refine ⟨fun a s => rfl, fun a => rfl, ?_⟩
  simp only [fLookup_eq_listedByte]
  decide

/-! ## The frame of the sub-operations -/

@[simp] theorem State.emit_busy (s : State) (v : UnitOut) : (s.emit v).busy = s.busy := rfl

@[simp] theorem State.emit_done (s : State) (v : UnitOut) : (s.emit v).done = s.done := rfl

@[simp] theorem State.emit_blockOut (s : State) (v : UnitOut) : (s.emit v).blockOut = s.blockOut := rfl

/-- What every unit below the round does: it puts a value on its wires, and that is all (R90, R101 to R105,
R115; log 2). -/
theorem exec_eq_emit {i : Instr} (hcommand : i.row.unit ≠ .command) (hschedule : i.row.unit ≠ .schedule)
    (s : State) : ∃ v, exec i s = .next (s.emit v) ∧ v ≠ .none := by
  cases i
  case g | gInv | gs | gsi | cv | f => exact ⟨_, rfl, nofun⟩
  case reset | nop | startEnc | startDec => exact absurd rfl hcommand
  case ruleA | ruleB | ruleAInv | ruleBInv => exact absurd rfl hschedule

/-- Settles O31: each of the six belongs to a unit below the round, and so only puts a value on its wires. -/
theorem subOperationsWriteNoRegister : Obligations.SubOperationsWriteNoRegister := by
  intro i k w l r kb a j s hi
  obtain ⟨hcommand, hschedule⟩ : i.row.unit ≠ .command ∧ i.row.unit ≠ .schedule := by
    obtain rfl | rfl | rfl | rfl | rfl | rfl := hi <;> exact ⟨nofun, nofun⟩
  obtain ⟨v, hexec, hv⟩ := exec_eq_emit hcommand hschedule s
  refine ⟨s.emit v, hexec, ?_⟩
  simp [hv]

end Sys2Proof.Machine
end

section
/-! PROOFS. The G-permutation (41_g_permutation): what each of its operations puts on the wires, and that a stage,
and so the chain of four, is undone by its inverse under the same key bytes, whatever the F-table holds. -/

namespace Sys2Proof.Machine

/-! ## What the operations answer -/

section
variable (k : BitVec 5) (w : Word) (l r kb : Byte) (s : State)

theorem exec_gs : exec (.gs l r kb) s
    = .next { s with unitOut := .pair (gStage (l, r) kb).1 (gStage (l, r) kb).2 } := rfl

theorem exec_gsi : exec (.gsi l r kb) s
    = .next { s with unitOut := .pair (gStageInv (l, r) kb).1 (gStageInv (l, r) kb).2 } := rfl

theorem exec_g : exec (.g k w) s = .next { s with unitOut := .word (gPerm s.keyr (roundOf k) w) } := rfl

theorem exec_gInv : exec (.gInv k w) s = .next { s with unitOut := .word (gPermInv s.keyr (roundOf k) w) } := rfl

theorem exec_cv (j : BitVec 2) : exec (.cv k j) s
    = .next { s with unitOut := .byte (keyByte s.keyr (roundOf k) j.toNat) } := rfl

end

/-! ## The stages and the chains undo each other -/

/-- The pair keeps the byte that addressed the ROM, so the same entry cancels (R102). -/
@[simp] theorem gStageInv_gStage (p : Byte × Byte) (kb : Byte) : gStageInv (gStage p kb) kb = p := by
  simp only [gStage, gStageInv, xor_cancel_left, Prod.mk.eta]

@[simp] theorem gStage_gStageInv (p : Byte × Byte) (kb : Byte) : gStage (gStageInv p kb) kb = p := by
  simp only [gStage, gStageInv, xor_cancel_left, Prod.mk.eta]

/-- The stages are taken off from the last to the first (R107). -/
@[simp] theorem gPermInv_gPerm (keyr : KeyRegs) (r : Nat) (w : Word) : gPermInv keyr r (gPerm keyr r w) = w := by
  simp only [gPerm, gPermInv, hiByte_joinBytes, loByte_joinBytes, Prod.mk.eta, gStageInv_gStage,
    joinBytes_hiByte_loByte]

@[simp] theorem gPerm_gPermInv (keyr : KeyRegs) (r : Nat) (w : Word) : gPerm keyr r (gPermInv keyr r w) = w := by
  simp only [gPerm, gPermInv, hiByte_joinBytes, loByte_joinBytes, Prod.mk.eta, gStage_gStageInv,
    joinBytes_hiByte_loByte]

theorem gPerm_bijective (keyr : KeyRegs) (r : Nat) : Function.Bijective (gPerm keyr r) :=
  Function.bijective_iff_has_inverse.mpr ⟨gPermInv keyr r, gPermInv_gPerm keyr r, gPerm_gPermInv keyr r⟩

/-! ## The statements -/

/-- Settles O20: both operations read the same key bytes, so the two chains cancel. -/
theorem gAndGInvAreInverse : Obligations.GAndGInvAreInverse := by
  refine ⟨fun k w s => ⟨⟨_, exec_g k w s, ?_⟩, ⟨_, exec_gInv k w s, ?_⟩⟩, fun keyr k => gPerm_bijective keyr _⟩
  · rw [exec_gInv, gPermInv_gPerm]
  · rw [exec_g, gPerm_gPermInv]

/-- Settles O15: the pair `gStage` makes, written out. -/
theorem gsAnswersTheForwardStage : Obligations.GsAnswersTheForwardStage := exec_gs

/-- Settles O16: the pair `gStageInv` makes, written out; in each round trip the stages cancel. -/
theorem gsiAnswersTheInverseStage : Obligations.GsiAnswersTheInverseStage := by
  intro l r kb s
  refine ⟨exec_gsi l r kb s, ⟨_, _, exec_gs l r kb s, ?_⟩, ⟨_, _, exec_gsi l r kb s, ?_⟩⟩
  · rw [exec_gsi, Prod.mk.eta, gStageInv_gStage]
  · rw [exec_gs, Prod.mk.eta, gStage_gStageInv]

/-- Settles O17: the word `gPerm` makes, its stages written out byte by byte. -/
theorem gAnswersTheFourStageChain : Obligations.GAnswersTheFourStageChain := exec_g

/-- Settles O18: the word `gPermInv` makes, its stages written out byte by byte. -/
theorem gInvAnswersTheReversedChain : Obligations.GInvAnswersTheReversedChain := exec_gInv

/-- Settles O19: each stage takes its byte from `CV` and hands its pair on to the next, as `gPerm` chains them. -/
theorem gIsTheChainOfItsSubOperations : Obligations.GIsTheChainOfItsSubOperations := fun k w s =>
  ⟨_, _, _, _, _, _, _, _, exec_cv k s 0, exec_cv k s 1, exec_cv k s 2, exec_cv k s 3,
    exec_gs _ _ _ s, exec_gs _ _ _ s, exec_gs _ _ _ s, exec_gs _ _ _ s, exec_g k w s⟩

end Sys2Proof.Machine
end

section
/-! PROOFS. The key schedule (42_key_schedule): the key byte `CV` answers, its period of five rounds, and who
writes the key registers. -/

namespace Sys2Proof.Machine

/-! ## The key byte -/

/-- Settles O21: `CV` hands out the key byte, and the parts of `K || j` come back. -/
theorem cvAnswersTheScheduledKeyByte : Obligations.CvAnswersTheScheduledKeyByte :=
  fun k j s => ⟨exec_cv k s j, decode_keySchedule_append k j⟩

/-! ## The period of five rounds -/

/-- The key bytes repeat every five rounds, since `4 * 5` is a multiple of 10 (R118). -/
theorem keyByte_congr (keyr : KeyRegs) {k k' : BitVec 5} (h : k.toNat % 5 = k'.toNat % 5) :
    keyByte keyr (roundOf k) = keyByte keyr (roundOf k') := by
  funext j
  rw [keyByte_roundOf, keyByte_roundOf]
  exact readKey_congr keyr (by omega)

/-- `G` depends on the round through its key bytes alone (R108). -/
theorem gPerm_congr {keyr : KeyRegs} {r r' : Nat} (h : keyByte keyr r = keyByte keyr r') :
    gPerm keyr r = gPerm keyr r' := by
  funext w
  simp only [gPerm, h]

/-- `G_INV` depends on the round through its key bytes alone (R108). -/
theorem gPermInv_congr {keyr : KeyRegs} {r r' : Nat} (h : keyByte keyr r = keyByte keyr r') :
    gPermInv keyr r = gPermInv keyr r' := by
  funext w
  simp only [gPermInv, h]

/-- The five rows of R118's table, one after the other: four indices a round, counted modulo ten. -/
def keyIndexTable : List (Fin 10) := [0, 1, 2, 3, 4, 5, 6, 7, 8, 9, 0, 1, 2, 3, 4, 5, 6, 7, 8, 9]

theorem keyIndexTable_getD : ∀ n < 20, (keyIndexTable.getD n 0).val = n % 10 := by decide

/-- The key byte is the register that row `K mod 5`, column `j` of R118's table lists. -/
theorem keyByte_eq_keyIndexTable (keyr : KeyRegs) (k : BitVec 5) (j : BitVec 2) :
    keyByte keyr (roundOf k) j.toNat = keyr[keyIndexTable.getD (4 * (k.toNat % 5) + j.toNat) 0] := by
  have hindex : (4 * k.toNat + j.toNat) % 10
      = (keyIndexTable.getD (4 * (k.toNat % 5) + j.toNat) 0).val := by
    rw [keyIndexTable_getD _ (by omega)]
    omega
  simp only [keyByte_roundOf, readKey, hindex, Fin.getElem_fin]

/-- Settles O22: the key bytes have period five, and `G` and `G_INV` see the round through them only; the table
lists the index of each. -/
theorem keyScheduleHasPeriodFive : Obligations.KeyScheduleHasPeriodFive := by
  refine ⟨fun k k' j w s h => ?_, fun k j s => ?_⟩
  · have hbytes := keyByte_congr s.keyr h
    refine ⟨?_, ?_, ?_⟩
    · rw [exec_cv, exec_cv, hbytes]
    · rw [exec_g, exec_g, gPerm_congr hbytes]
    · rw [exec_gInv, exec_gInv, gPermInv_congr hbytes]
  · rw [exec_cv, keyByte_eq_keyIndexTable]
    rfl

/-! ## Who writes the key registers -/

/-- A step leaves the key registers alone unless it resets or accepts a start (R23, R120). -/
theorem step_next_keyr {s t : State} (h : step s = .next t) :
    t.keyr = s.keyr ∨ s.sample.rst = true ∨ (s.phase ≠ .busy ∧ s.sample.start = true) := by
  obtain ⟨-, hst⟩ := step_next_stepsTo h
  cases hst with
  | reset hrst => exact .inr (.inl hrst)
  | @round x => exact .inl (s.writeWords x).advanceCounter_keyr
  | startEnc _ hb hstart => exact .inr (.inr ⟨hb, hstart⟩)
  | startDec _ hb hstart => exact .inr (.inr ⟨hb, hstart⟩)
  | nop => exact .inl rfl

/-- An operation under way has its key in the key registers (R120). -/
theorem State.Toward.keyr_eq {m : Mode} {keyr : KeyRegs} {y : Words} {n : Nat} {s : State}
    (h : State.Toward m keyr y n s) : s.keyr = keyr := by
  cases h with
  | done _ _ hkeyr => exact hkeyr
  | busy _ _ _ hkeyr => exact hkeyr

/-- Settles O44: a step that neither resets nor accepts a start keeps the key, and so do the rounds of the
operation a start begins. -/
theorem keyIsWrittenByStartAndResetOnly : Obligations.KeyIsWrittenByStartAndResetOnly := by
  refine ⟨fun s t _ h => ⟨(step_next_keyr h).resolve_left, fun hb hrst => ?_⟩,
    fun n s p rest hl hb hhost hrst hstart hn hrest => ?_⟩
  · exact (step_next_keyr h).resolve_right (by simp [hb, hrst])
  · obtain ⟨t, ht, htoward, -⟩ := core_run_of_start hl hb hhost hrst hstart (Nat.sub_add_cancel hn) hrest
    refine ⟨t, ht, fun i hi => ?_⟩
    simp only [htoward.keyr_eq, getElem_keyOfPort]

end Sys2Proof.Machine
end

section
/-! PROOFS. The round rules (43_round_rules): each operation writes the words its rule makes and nothing else, and
each rule is undone by its inverse, since `G_INV` undoes `G` and a word XORed twice cancels. -/

namespace Sys2Proof.Machine

/-! ## What the operations answer -/

section
variable (k : BitVec 5) (s : State)

theorem exec_ruleA : exec (.ruleA k) s = .next (s.writeWords (ruleA s.keyr (roundOf k) s.w)) := rfl

theorem exec_ruleB : exec (.ruleB k) s = .next (s.writeWords (ruleB s.keyr (roundOf k) s.w)) := rfl

theorem exec_ruleAInv : exec (.ruleAInv k) s = .next (s.writeWords (ruleAInv s.keyr (roundOf k) s.w)) := rfl

theorem exec_ruleBInv : exec (.ruleBInv k) s = .next (s.writeWords (ruleBInv s.keyr (roundOf k) s.w)) := rfl

end

/-- Settles O23: the words `ruleA` makes, written out, and the first mask of R75's table. -/
theorem ruleAResult : Obligations.RuleAResult :=
  ⟨exec_ruleA, fun sw => have ⟨hA, _, _, _⟩ := scheduleWordSelectsTheRule.2 sw; hA⟩

/-- Settles O24: the words `ruleB` makes, written out, and the second mask of R75's table. -/
theorem ruleBResult : Obligations.RuleBResult :=
  ⟨exec_ruleB, fun sw => have ⟨_, hB, _, _⟩ := scheduleWordSelectsTheRule.2 sw; hB⟩

/-- Settles O25: the words `ruleAInv` makes, written out, and the third mask of R75's table. -/
theorem ruleAInvResult : Obligations.RuleAInvResult :=
  ⟨exec_ruleAInv, fun sw => have ⟨_, _, hAInv, _⟩ := scheduleWordSelectsTheRule.2 sw; hAInv⟩

/-- Settles O26: the words `ruleBInv` makes, written out, and the fourth mask of R75's table. -/
theorem ruleBInvResult : Obligations.RuleBInvResult :=
  ⟨exec_ruleBInv, fun sw => have ⟨_, _, _, hBInv⟩ := scheduleWordSelectsTheRule.2 sw; hBInv⟩

/-- Settles O27: the rules place the very words that `G` and `G_INV` put on the wires. -/
theorem roundsFeedTheGUnit : Obligations.RoundsFeedTheGUnit := fun k s =>
  ⟨_, _, _, _, _, _, exec_g k s.w.w1 s, exec_gInv k s.w.w2 s, exec_ruleA k s, rfl, exec_ruleB k s, rfl,
    exec_ruleAInv k s, rfl, exec_ruleBInv k s, rfl⟩

/-! ## The rules undo each other -/

section
variable (keyr : KeyRegs) (r : Nat) (x : Words)

/-- The old fourth word stands in the new first one, under the new second word and the counter (R132). -/
@[simp] theorem ruleAInv_ruleA : ruleAInv keyr r (ruleA keyr r x) = x := by
  simp only [ruleA, ruleAInv, gPermInv_gPerm, xor_assoc, xor_xor_cancel_comm_assoc]

@[simp] theorem ruleA_ruleAInv : ruleA keyr r (ruleAInv keyr r x) = x := by
  simp only [ruleA, ruleAInv, gPerm_gPermInv, xor_assoc, BitVec.xor_self, BitVec.xor_zero, xor_xor_cancel_comm_assoc]

/-- The old second word stands in the new third one, under the old first word and the counter (R134). -/
@[simp] theorem ruleBInv_ruleB : ruleBInv keyr r (ruleB keyr r x) = x := by
  simp only [ruleB, ruleBInv, gPermInv_gPerm, xor_assoc, xor_cancel_left, BitVec.xor_self, BitVec.xor_zero]

@[simp] theorem ruleB_ruleBInv : ruleB keyr r (ruleBInv keyr r x) = x := by
  simp only [ruleB, ruleBInv, gPerm_gPermInv, xor_assoc, xor_cancel_left, BitVec.xor_self, BitVec.xor_zero]

end

@[simp] theorem State.writeWords_writeWords (s : State) (x y : Words) :
    (s.writeWords x).writeWords y = s.writeWords y := rfl

@[simp] theorem State.writeWords_self (s : State) : s.writeWords s.w = s := rfl

/-- Settles O28: both operations see the same key and counter, so the two rules cancel on the words. -/
theorem ruleAAndItsInverseUndoEachOther : Obligations.RuleAAndItsInverseUndoEachOther := by
  refine fun k s => ⟨⟨_, exec_ruleA k s, ?_⟩, ⟨_, exec_ruleAInv k s, ?_⟩⟩
  · simp [exec_ruleAInv, ruleAInv_ruleA]
  · simp [exec_ruleA, ruleA_ruleAInv]

/-- Settles O29: both operations see the same key and counter, so the two rules cancel on the words. -/
theorem ruleBAndItsInverseUndoEachOther : Obligations.RuleBAndItsInverseUndoEachOther := by
  refine fun k s => ⟨⟨_, exec_ruleB k s, ?_⟩, ⟨_, exec_ruleBInv k s, ?_⟩⟩
  · simp [exec_ruleBInv, ruleBInv_ruleB]
  · simp [exec_ruleB, ruleB_ruleBInv]

/-! ## The frame of the round operations -/

@[simp] theorem State.writeWords_busy (s : State) (x : Words) : (s.writeWords x).busy = s.busy := rfl

@[simp] theorem State.writeWords_done (s : State) (x : Words) : (s.writeWords x).done = s.done := rfl

/-- What every operation of the sequencer does: it writes the four words, and that is all (R125). -/
theorem exec_eq_writeWords {i : Instr} (hschedule : i.row.unit = .schedule) (s : State) :
    ∃ x, exec i s = .next (s.writeWords x) := by
  cases i
  case ruleA | ruleB | ruleAInv | ruleBInv => exact ⟨_, rfl⟩
  all_goals cases hschedule

/-- Settles O30: each of the four is an operation of the sequencer, and so only writes the words. -/
theorem roundOperationsWriteOnlyTheWords : Obligations.RoundOperationsWriteOnlyTheWords := by
  intro i k s hi
  have hschedule : i.row.unit = .schedule := by
    obtain rfl | rfl | rfl | rfl := hi <;> rfl
  obtain ⟨x, hexec⟩ := exec_eq_writeWords hschedule s
  refine ⟨s.writeWords x, hexec, ?_⟩
  simp

end Sys2Proof.Machine
end

section
/-! PROOFS. The host's commands and the priority of the step (44_driver R145 to R150, R154). -/

namespace Sys2Proof.Machine

/-! ## The step in every legal state -/

/-- The legal phases that accept a start (R28, R148). -/
theorem State.Legal.not_busy_iff {s : State} (hl : s.Legal) :
    s.phase ≠ .busy ↔ s.phase = .idle ∨ s.phase = .done := by
  obtain ⟨hreserved, -⟩ := hl
  cases hp : s.phase <;> simp_all

/-- A round in progress that the host does not reset is fetched by its schedule word (R73, R74). -/
theorem State.fetch_of_round {s : State} (hl : s.Legal) (hround : s.sample.rst = false ∧ s.phase = .busy) :
    s.fetch = .ok (.schedule s.scheduleWord) := by
  rw [State.fetch_of_legal hl, if_pos hround]

/-- Where there is no such round the command on the ports is fetched (R71, R73). -/
theorem State.fetch_of_command {s : State} (hl : s.Legal) (hround : ¬(s.sample.rst = false ∧ s.phase = .busy)) :
    s.fetch = .ok (.command s.sample.cmd s.sample.keyIn s.sample.blockIn) := by
  rw [State.fetch_of_legal hl, if_neg hround]

/-- The step is total on the legal states: something is fetched, and every operation answers (R145). -/
theorem State.Legal.exists_step {s : State} (hl : s.Legal) : ∃ t, step s = .next t := by
  have hfetch := State.fetch_of_legal hl
  obtain ⟨_, hexec, -⟩ := exec_answers _ s
  exact ⟨_, step_of_fetch_of_exec hfetch hexec⟩

/-- Settles O50: the step answers, and what it answers is legal. -/
theorem legalStatesStepToLegalStates : Obligations.LegalStatesStepToLegalStates := by
  intro s hl
  obtain ⟨t, h⟩ := hl.exists_step
  exact ⟨t, h, step_next_legal h⟩

/-- A step with `rst = 1`, in any legal state (R200). -/
theorem step_of_reset {s : State} (hl : s.Legal) (hrst : s.sample.rst = true) :
    step s = .next s.resetRegisters.endStep := by
  refine step_of_fetch_of_exec (State.fetch_of_command hl (by simp [hrst])) ?_
  rw [decode_command_cmd, hrst]
  rfl

/-! ## The priority of the step -/

/-- The step number of the counter stands for the round of the counter (R16, R74). -/
theorem State.Legal.roundOf_ctr {s : State} (hl : s.Legal) :
    roundOf (BitVec.ofNat 5 (s.ctr.toNat - 1)) = s.ctr.toNat := by
  obtain ⟨-, hge, hle⟩ := hl
  rw [roundOf, BitVec.toNat_ofNat]
  omega

/-- The round operation a legal BUSY state fetches (R74, R75). -/
theorem State.decode_scheduleWord {s : State} (hl : s.Legal) :
    decode (.schedule s.scheduleWord) = roundInstr s.mode (BitVec.ofNat 5 (s.ctr.toNat - 1)) := by
  rw [State.scheduleWord_of_legal hl, decode_schedule_append]

/-- Settles O39: the step performs what the fetched word decodes to, a round's word by the ranges of doc00 and a
command's by the table of the ports. -/
theorem stepFollowsThePriority : Obligations.StepFollowsThePriority := by
  intro s hl p k i
  obtain ⟨t, ht, -⟩ := exec_answers i s
  refine ⟨t, ht, ?_⟩
  by_cases hround : p.rst = false ∧ s.phase = .busy
  · have hdecode : decode (.schedule s.scheduleWord) = i := by
      rw [State.decode_scheduleWord hl, roundInstr_eq, hl.roundOf_ctr]
      simp only [i, hround.1, Bool.false_eq_true, if_false, if_pos hround.2]
      cases s.mode <;> rfl
    rw [if_pos hround]
    exact step_of_fetch_of_exec (State.fetch_of_round hl hround) (hdecode ▸ ht)
  · have hdecode : decode (.command p.cmd p.keyIn p.blockIn) = i := by
      rw [decode_command_cmd]
      simp only [i]
      cases hrst : p.rst with
      | true => rfl
      | false =>
        have hb : s.phase ≠ .busy := fun hb => hround ⟨hrst, hb⟩
        cases p.start <;> cases p.decrypt <;> simp [hb]
    rw [if_neg hround]
    exact step_of_fetch_of_exec (State.fetch_of_command hl hround) (hdecode ▸ ht)

/-! ## `NOP` -/

/-- Settles O33: the operation answers the state itself, and the step only ends after it. -/
theorem nopWritesNothing : Obligations.NopWritesNothing := by
  refine ⟨fun decrypt s => rfl, fun decrypt key block => ?_, fun s hl hb hrst hstart => ?_⟩
  · cases decrypt <;> rfl
  · exact ⟨s.endStep, step_of_nop hl hb hrst hstart, rfl, rfl, rfl, rfl, rfl, rfl, rfl, rfl⟩

/-! ## The starts -/

/-- A start in IDLE or DONE loads its operands (R148). -/
theorem State.startWith_of_idle_or_done {s : State} (hp : s.phase = .idle ∨ s.phase = .done) (key : BitVec 80)
    (block : BitVec 64) (m : Mode) (c : BitVec 6) :
    s.startWith key block m c = (s.loadOperands key block).setControl m c .busy := by
  have haccepts : s.phase.acceptsStart = true := by
    obtain hp | hp := hp <;> rw [hp] <;> rfl
  exact State.startWith_of_accepts haccepts key block m c

/-- Settles O34: the operands are loaded, and the outputs are those of BUSY. -/
theorem startEncLoadsTheOperands : Obligations.StartEncLoadsTheOperands := by
  intro key block s hp
  exact ⟨_, congrArg Host.Outcome.next (State.startWith_of_idle_or_done hp key block .encrypt 1),
    fun _ => getElem_keyOfPort key, rfl, rfl, rfl, rfl, rfl, rfl, rfl, rfl, rfl, rfl, rfl, rfl,
    decode_command_cmd ⟨false, true, false, 0, 0⟩ key block⟩

/-- Settles O35: the operands are loaded, and the outputs are those of BUSY. -/
theorem startDecLoadsTheOperands : Obligations.StartDecLoadsTheOperands := by
  intro key block s hp
  exact ⟨_, congrArg Host.Outcome.next (State.startWith_of_idle_or_done hp key block .decrypt 32),
    fun _ => getElem_keyOfPort key, rfl, rfl, rfl, rfl, rfl, rfl, rfl, rfl, rfl, rfl, rfl, rfl,
    decode_command_cmd ⟨false, true, true, 0, 0⟩ key block⟩

/-! ## The ports in BUSY -/

/-- The end of a round uses up the port sample and does not look at it (R151, R152; log 1). -/
theorem State.endStep_advanceCounter_host_cons (s : State) (p q : Ports) (rest : List Ports) :
    { s with host := p :: rest }.advanceCounter.endStep = { s with host := q :: rest }.advanceCounter.endStep := by
  simp only [State.advanceCounter]
  split <;> split <;> rfl

/-- Settles O46: a reset and a round write the registers without looking at the other ports, and an illegal state is
refused whatever they are. -/
theorem busyStepReadsOnlyRst : Obligations.BusyStepReadsOnlyRst := by
  intro s p q rest hb hpq
  by_cases hl : s.Legal
  · cases hrst : p.rst with
    | true =>
      rw [step_of_reset (s := { s with host := p :: rest }) hl hrst,
        step_of_reset (s := { s with host := q :: rest }) hl (hpq.symm.trans hrst)]
      rfl
    | false =>
      rw [step_of_busy (s := { s with host := p :: rest }) hl hb hrst,
        step_of_busy (s := { s with host := q :: rest }) hl hb (hpq.symm.trans hrst)]
      exact congrArg Host.Outcome.next (State.endStep_advanceCounter_host_cons (s.writeWords _) p q rest)
  · obtain ⟨-, hrefused, -⟩ := illegalStatesAreRefused
    have hreserved : s.phase ≠ .reserved := by simp [hb]
    have hctr : s.ctr.toNat = 0 ∨ 32 < s.ctr.toNat := by
      by_contra hrange
      exact hl ⟨hreserved, by omega⟩
    rw [hrefused { s with host := p :: rest } hreserved hctr, hrefused { s with host := q :: rest } hreserved hctr]

/-- Settles O36: by the forms of the next state; in BUSY the step does not look at `start`, and the phase refuses the
operation. -/
theorem startIsAcceptedInIdleOrDoneOnly : Obligations.StartIsAcceptedInIdleOrDoneOnly := by
  refine ⟨fun s hl => ?_, fun s p rest _ hb _ _ => ?_, fun key block s hb => ?_⟩
  · obtain ⟨t, h⟩ := hl.exists_step
    refine ⟨t, h, ?_⟩
    rw [← hl.not_busy_iff]
    obtain ⟨-, hst⟩ := step_next_stepsTo h
    cases hst with
    | reset hrst => simp [hrst, State.reset]
    | round hrst hb => simp [hb]
    | startEnc hrst hb hstart => simp [hrst, hb, hstart]
    | startDec hrst hb hstart => simp [hrst, hb, hstart]
    | nop hrst hb hstart => simp [hb, hstart]
  · exact busyStepReadsOnlyRst s p { p with start := false } rest hb rfl
  · have hrefuses : s.phase.acceptsStart = false := hb ▸ rfl
    have hstart (m : Mode) (c : BitVec 6) := State.startWith_of_not_accepts hrefuses key block m c
    exact ⟨congrArg Host.Outcome.next (hstart .encrypt 1), congrArg Host.Outcome.next (hstart .decrypt 32)⟩

end Sys2Proof.Machine
end

section
/-! PROOFS. The round steps of each direction (44_driver R151 to R153): the rule and the counter, and the result that
stays after the last round. -/

namespace Sys2Proof.Machine

/-! ## The round steps -/

/-- The counter advance does not look at the words (R151, R152). -/
theorem State.advanceCounter_writeWords (s : State) (x : Words) :
    (s.writeWords x).advanceCounter = s.advanceCounter.writeWords x := by
  unfold State.advanceCounter
  rw [State.writeWords_mode, State.writeWords_ctr]
  split <;> split <;> rfl

/-- What the step of a round in progress does to each field: the words by the round, the counter and the phase by
the counter advance, and no other register (R151, R152). -/
theorem step_of_busy_fields {s : State} (hl : s.Legal) (hb : s.phase = .busy) (hrst : s.sample.rst = false) :
    ∃ t, step s = .next t ∧ t.w = roundWords s.mode s.keyr s.ctr.toNat s.w ∧ t.phase = s.advanceCounter.phase
      ∧ t.ctr = s.advanceCounter.ctr ∧ t.keyr = s.keyr ∧ t.mode = s.mode ∧ t.host = s.host.tail
      ∧ t.unitOut = .none := by
  refine ⟨_, step_of_busy hl hb hrst, ?_⟩
  simp [State.advanceCounter_writeWords]

/-- Settles O40: the round of the counter, then the counter advance of an encryption. -/
theorem encryptionRoundStep : Obligations.EncryptionRoundStep := by
  intro s hl hrst hb hm r
  obtain ⟨t, h, hw, hphase, hctr, hkeyr, hmode, hhost, hout⟩ := step_of_busy_fields hl hb hrst
  rw [hm] at hw hmode
  refine ⟨t, h, hw, ?_, hkeyr, hmode, hhost, hout⟩
  rw [hphase, hctr]
  obtain ⟨hlt, hc, hp⟩ | ⟨hlast, hc, hp⟩ := State.advanceCounter_of_encrypt hl hm
  · exact (if_neg hlt.ne).mpr ⟨hp.trans hb, hc⟩
  · exact (if_pos hlast).mpr ⟨hp, hc ▸ hlast⟩

/-- Settles O41: the inverse round of the counter, then the counter advance of a decryption. -/
theorem decryptionRoundStep : Obligations.DecryptionRoundStep := by
  intro s hl hrst hb hm r
  obtain ⟨t, h, hw, hphase, hctr, hkeyr, hmode, hhost, hout⟩ := step_of_busy_fields hl hb hrst
  rw [hm] at hw hmode
  refine ⟨t, h, hw, ?_, hkeyr, hmode, hhost, hout⟩
  rw [hphase, hctr]
  obtain ⟨hgt, hc, hp⟩ | ⟨hlast, hc, hp⟩ := State.advanceCounter_of_decrypt hl hm
  · exact (if_neg hgt.ne').mpr ⟨hp.trans hb, Nat.eq_sub_of_add_eq hc⟩
  · exact (if_pos hlast).mpr ⟨hp, hc ▸ hlast⟩

/-! ## The result stays -/

/-- The two states differ at most in the model's own fields, so that all registers and outputs agree. -/
def State.SameRegisters (s t : State) : Prop :=
  ∃ host v, t = { s with host := host, unitOut := v }

/-- Steps without reset or start in IDLE or DONE write no register, however many (R147, R153). -/
theorem core_run_of_nops (n : Nat) {s : State} (hl : s.Legal) (hb : s.phase ≠ .busy)
    (hports : ∀ q ∈ s.host.take n, q.rst = false ∧ q.start = false) :
    ∃ t, Sys2Proof.core.run n s = .next t ∧ s.SameRegisters t := by
  have hstep (u : State) (hu : s.SameRegisters u) (hq : u.sample.rst = false ∧ u.sample.start = false) :
      ∃ t, step u = .next t ∧ s.SameRegisters t := by
    obtain ⟨host, v, rfl⟩ := hu
    exact ⟨_, step_of_nop hl hb hq.1 hq.2, ⟨_, _, rfl⟩⟩
  obtain ⟨t, ht, hsame, -⟩ := core_run_of_step (i := 0) (P := fun _ => s.SameRegisters)
    (Ok := fun q => q.rst = false ∧ q.start = false) ⟨rfl, rfl⟩ (fun _ => hstep) n ⟨_, _, rfl⟩ hports
  exact ⟨t, ht, hsame⟩

/-- Settles O45: the counter advance of the last round ends the operation, and `NOP` writes nothing in DONE. -/
theorem resultStaysUntilStartOrReset : Obligations.ResultStaysUntilStartOrReset := by
  refine ⟨fun s hl hb hrst hlast => ?_, fun n s hl hp hports => ?_⟩
  · obtain ⟨t, h, -, hphase, hctr, -, hmode, -, -⟩ := step_of_busy_fields hl hb hrst
    rw [State.advanceCounter_phase, if_pos hlast] at hphase
    rw [State.advanceCounter_ctr, if_pos hlast] at hctr
    exact ⟨t, h, hphase, t.done_iff.mpr hphase, State.blockOut_of_done hphase, hctr, hmode⟩
  · obtain ⟨t, ht, host, v, rfl⟩ := core_run_of_nops n hl (by simp [hp]) hports
    exact ⟨_, ht, rfl, rfl, rfl, rfl, hp, (State.done_iff _).mpr hp, rfl⟩

end Sys2Proof.Machine
end

section
/-! PROOFS. Whole operations (44_driver R155 to R158, R160): what 33 steps from a start leave, and that the two
directions undo each other. -/

namespace Sys2Proof.Machine

/-! ## The outputs during an operation -/

/-- While rounds are to go the engine is busy (R30, R160). -/
theorem State.Toward.busy_eq {m : Mode} {keyr : KeyRegs} {y : Words} {n : Nat} {s : State}
    (h : State.Toward m keyr y n s) : s.busy = decide (n ≠ 0) := by
  cases h with
  | done hphase => exact decide_eq_false (by simp [hphase])
  | busy _ hphase => exact decide_eq_true hphase

/-- The result stands on the port once no round is to go, and zero before (R30). -/
theorem State.Toward.blockOut_eq {m : Mode} {keyr : KeyRegs} {y : Words} {n : Nat} {s : State}
    (h : State.Toward m keyr y n s) : s.blockOut = if n = 0 then y.toPort else 0 := by
  cases h with
  | done hphase _ _ hw => rw [State.blockOut_of_done hphase, hw, if_pos rfl]
  | busy _ hphase => rw [State.blockOut_of_not_done (by simp [hphase]), if_neg (Nat.succ_ne_zero _)]

/-- Settles O56: after `n` steps of the 32 rounds an operation still has `32 - n` to go. -/
theorem operationTakesThirtyTwoRoundSteps : Obligations.OperationTakesThirtyTwoRoundSteps := by
  intro s p rest hl hp hhost hrst hstart hrest
  have hrun (n : Nat) (hn : n ≤ 32) := core_run_of_start hl (hl.not_busy_iff.mpr hp) hhost hrst hstart
    (Nat.sub_add_cancel hn) fun q hq => hrest q (List.take_subset_take_left rest hn hq)
  constructor
  · intro n hn
    obtain ⟨t, ht, htoward, -⟩ := hrun n hn.le
    have hleft : 32 - n ≠ 0 := by omega
    exact ⟨t, ht, by simp [htoward.busy_eq, hleft], by simp [htoward.done_eq, hleft],
      by simp [htoward.blockOut_eq, hleft]⟩
  · obtain ⟨t, ht, htoward, -⟩ := hrun 32 le_rfl
    exact ⟨t, ht, htoward.busy_eq, htoward.done_eq⟩

/-! ## The engine computes the block functions -/

/-- An accepted start and 32 steps without reset leave the words of its operation on `block_out` (R155, R156). -/
theorem core_run_operation {s : State} {p : Ports} {rest : List Ports} (hl : s.Legal) (hb : s.phase ≠ .busy)
    (hhost : s.host = p :: rest) (hrst : p.rst = false) (hstart : p.start = true)
    (hrest : ∀ q ∈ rest.take 32, q.rst = false) :
    ∃ t, Sys2Proof.core.run 33 s = .next t ∧ t.phase = .done ∧ t.done = true ∧ t.busy = false
      ∧ t.blockOut = p.operation.toPort ∧ t.keyr = keyOfPort p.keyIn ∧ t.host = rest.drop 32 := by
  obtain ⟨t, ht, htoward, hleft⟩ := core_run_of_start (i := 0) (n := 32) hl hb hhost hrst hstart rfl hrest
  exact ⟨t, ht, t.done_iff.mp htoward.done_eq, htoward.done_eq, htoward.busy_eq, htoward.blockOut_eq,
    htoward.keyr_eq, hleft⟩

/-- Settles O53: the operation of a start with `decrypt = 0` is `ENCRYPT_BLOCK`. -/
theorem engineComputesEncryptBlock : Obligations.EngineComputesEncryptBlock := by
  intro s p rest k b hl hp hhost hrst hstart hdecrypt hkey hblock hrest
  rw [← Ports.operation_of_encrypt hdecrypt hkey hblock, ← keyOfPort_keyPortOfBytes k, ← hkey]
  exact core_run_operation hl (hl.not_busy_iff.mpr hp) hhost hrst hstart hrest

/-- Settles O54: the operation of a start with `decrypt = 1` is `DECRYPT_BLOCK`. -/
theorem engineComputesDecryptBlock : Obligations.EngineComputesDecryptBlock := by
  intro s p rest k b hl hp hhost hrst hstart hdecrypt hkey hblock hrest
  rw [← Ports.operation_of_decrypt hdecrypt hkey hblock, ← keyOfPort_keyPortOfBytes k, ← hkey]
  exact core_run_operation hl (hl.not_busy_iff.mpr hp) hhost hrst hstart hrest

/-! ## What went before a start -/

/-- An accepted start overwrites every register, so of the state before it only the host's plans are left (R158). -/
theorem State.endStep_started_congr {s s' : State} (hhost : s.host = s'.host) (p : Ports) :
    (s.started p).endStep = (s'.started p).endStep :=
  State.ext rfl rfl rfl rfl rfl (congrArg List.tail hhost) rfl

/-- Settles O48: the start leads both engines to one state; and the result is that of the operation on the ports. -/
theorem operationForgetsWhatWentBefore : Obligations.OperationForgetsWhatWentBefore := by
  refine ⟨fun s s' hl hl' hb hb' hhost hrst hstart n => ?_,
    fun s s' p rest rest' hl hl' hb hb' hhost hhost' hrst hstart hrest hrest' => ?_⟩
  · have hsample : s'.sample = s.sample := by rw [State.sample, State.sample, hhost]
    have hstep := step_of_start hl hb hrst hstart
    have hstep' := step_of_start hl' hb' (hsample ▸ hrst) (hsample ▸ hstart)
    rw [hsample, ← State.endStep_started_congr hhost] at hstep'
    rw [core_run_succ hstep, core_run_succ hstep']
  · obtain ⟨t, ht, -, hdone, -, hout, -⟩ := core_run_operation hl hb hhost hrst hstart hrest
    obtain ⟨t', ht', -, hdone', -, hout', -⟩ := core_run_operation hl' hb' hhost' hrst hstart hrest'
    exact ⟨t, t', ht, ht', hdone, hdone', hout.trans hout'.symm⟩

/-! ## The two directions undo each other -/

section
variable (keyr : KeyRegs) (r : Nat) (x : Words)

/-- Both directions use the same rule in a round, so its inverse undoes it (R132, R134). -/
@[simp] theorem decryptRound_encryptRound : decryptRound keyr r (encryptRound keyr r x) = x := by
  unfold decryptRound encryptRound
  split
  · exact ruleAInv_ruleA keyr r x
  · exact ruleBInv_ruleB keyr r x

@[simp] theorem encryptRound_decryptRound : encryptRound keyr r (decryptRound keyr r x) = x := by
  unfold decryptRound encryptRound
  split
  · exact ruleA_ruleAInv keyr r x
  · exact ruleB_ruleBInv keyr r x

end

/-- The rounds are taken off from the last to the first (R157). -/
@[simp] theorem decryptRounds_encryptRounds (keyr : KeyRegs) (n : Nat) (x : Words) :
    decryptRounds keyr n (encryptRounds keyr n x) = x := by
  induction n with
  | zero => rfl
  | succ n ih => rw [encryptRounds, decryptRounds, decryptRound_encryptRound, ih]

@[simp] theorem encryptRounds_decryptRounds (keyr : KeyRegs) (n : Nat) (x : Words) :
    encryptRounds keyr n (decryptRounds keyr n x) = x := by
  induction n generalizing x with
  | zero => rfl
  | succ n ih => rw [encryptRounds, decryptRounds, ih, encryptRound_decryptRound]

theorem decryptBlock_leftInverse (k : KeyRegs) : Function.LeftInverse (decryptBlock k) (encryptBlock k) := by
  intro b
  rw [decryptBlock, encryptBlock, Words.ofBytes_toBytes, decryptRounds_encryptRounds, Words.toBytes_ofBytes]

theorem decryptBlock_rightInverse (k : KeyRegs) : Function.RightInverse (decryptBlock k) (encryptBlock k) := by
  intro b
  rw [decryptBlock, encryptBlock, Words.ofBytes_toBytes, encryptRounds_decryptRounds, Words.toBytes_ofBytes]

/-- Settles O55: the functions of a key are inverse to each other, and so both are permutations. -/
theorem decryptionUndoesEncryption : Obligations.DecryptionUndoesEncryption := by
  intro k
  have hleft := decryptBlock_leftInverse k
  have hright := decryptBlock_rightInverse k
  exact ⟨fun b => ⟨hleft b, hright b⟩, ⟨hleft.injective, hright.surjective⟩,
    ⟨hright.injective, hleft.surjective⟩⟩

end Sys2Proof.Machine
end

section
/-! PROOFS. Reset and liveness (70_reset_and_hazards R200, R219): what `rst = 1` leaves, and when the engine is not
busy. -/

namespace Sys2Proof.Machine

/-! ## Liveness -/

/-- An operation has 32 rounds, so no more than these are still to go (R26, R214). -/
theorem State.Legal.roundsToGo_le {s : State} (hl : s.Legal) : s.roundsToGo ≤ 32 := by
  obtain ⟨-, hge, hle⟩ := hl
  unfold State.roundsToGo
  cases s.mode <;> dsimp only <;> omega

/-- Without reset the engine is not busy once the rounds to go are performed, at once where there is no operation
(R153, R219). -/
theorem State.Legal.exists_run_not_busy {s : State} (hl : s.Legal) (hrst : ∀ q ∈ s.host.take 32, q.rst = false) :
    ∃ n, n ≤ 32 ∧ ∃ t, Sys2Proof.core.run n s = .next t ∧ t.busy = false := by
  by_cases hb : s.phase = .busy
  · obtain ⟨n, y, hn, htoward⟩ := State.toward_of_busy hl hb
    have hle : n + 1 ≤ 32 := hn ▸ hl.roundsToGo_le
    rw [← (n + 1).zero_add] at htoward
    obtain ⟨t, ht, hdone, -⟩ := htoward.run fun q hq => hrst q (List.take_subset_take_left _ hle hq)
    exact ⟨n + 1, hle, t, ht, hdone.busy_eq⟩
  · exact ⟨0, Nat.zero_le _, s, rfl, decide_eq_false hb⟩

/-- Settles O57: the rounds to go end an operation, and without reset or start a step writes no register. -/
theorem engineIsNotBusyWithinThirtyTwoSteps : Obligations.EngineIsNotBusyWithinThirtyTwoSteps := by
  refine ⟨fun s hl hrst => hl.exists_run_not_busy hrst, fun s hl hb hrst hstart => ?_⟩
  have hphase : s.phase ≠ .busy := of_decide_eq_false hb
  exact ⟨s.endStep, step_of_nop hl hphase hrst hstart, hb⟩

/-! ## Reset -/

/-- Every key register is zero after a reset (R33). -/
theorem State.resetRegisters_keyr_getElem (s : State) (i : Nat) (h : i < 10) : s.resetRegisters.keyr[i] = 0 := by
  obtain ⟨-, -, -, -, -, -, -, -, -, hkey, -⟩ := resetStateHoldsTheStatedValues
  exact hkey i h

/-- Settles O32: the operation and the step both leave the reset registers, and bit 2 of `CMD` selects the operation. -/
theorem resetRestoresEveryRegister : Obligations.ResetRestoresEveryRegister := by
  refine ⟨fun start decrypt s => ?_, fun start decrypt key block => ?_, fun s hl hrst => ?_⟩
  · exact ⟨s.resetRegisters, rfl, rfl, rfl, rfl, rfl, s.resetRegisters_keyr_getElem, rfl, rfl, rfl, rfl, rfl⟩
  · exact decode_command_cmd ⟨true, start, decrypt, 0, 0⟩ key block
  · exact ⟨s.resetRegisters.endStep, step_of_reset hl hrst, rfl, rfl, rfl, rfl, s.resetRegisters_keyr_getElem,
      rfl, rfl, rfl⟩

end Sys2Proof.Machine
end

section
/-! PROOFS. Words written out bit by bit (95_test_vectors section 5.2): the listed words of the command, schedule and
key selection formats. -/

namespace Sys2Proof.Machine

/-- Settles O1: each word is the word of its parts, `rst || start || decrypt`, `MODE || K` or `K || j`, and the table of
its format says what these select. -/
theorem wordsOfTheSpecDecodeAsListed : Obligations.WordsOfTheSpecDecodeAsListed := by
  have hcommand (rst start decrypt : Bool) := decode_command_cmd ⟨rst, start, decrypt, 0, 0⟩
  refine ⟨?reset, ?resetAllOnes, ?nop, ?startEnc, ?startDec, ?ruleA, ?ruleB, ?ruleAInv, ?ruleBInv, ?cv, ?cvAllOnes⟩
  case reset => exact hcommand true false false
  case resetAllOnes => exact hcommand true true true
  case nop => exact hcommand false false false
  case startEnc => exact hcommand false true false
  case startDec => exact hcommand false true true
  case ruleA => exact decode_schedule_append .encrypt 7
  case ruleB => exact decode_schedule_append .encrypt 24
  case ruleAInv => exact decode_schedule_append .decrypt 16
  case ruleBInv => exact decode_schedule_append .decrypt 15
  case cv => exact decode_keySchedule_append 2 2
  case cvAllOnes => exact decode_keySchedule_append 31 3

end Sys2Proof.Machine
end
